-- ==== Sys2Proof/Word.lean ====
section
/-! DEFINITION. The data that stand at the block's ports: bytes, the table's code formats, and one transaction.
The block stores, moves and transmits single bytes (R30, R31); an operation reaches it as a code of one of the
formats of opcode_table.json with its operands (R48, R50, R51). -/

namespace Sys2Proof

/-- A byte: an unsigned 8-bit value (R11). -/
abbrev Byte := BitVec 8

/-- The formats of opcode_table.json whose rows have a code (the formats `internal` and `port` have none, R50). -/
inductive Fmt where
  /-- The 4-bit command code (R48, R49). -/
  | cmd4
  /-- One wire byte, 8 bits (R40, R45). -/
  | wireByte
  /-- A two-byte escape sequence as one 16-bit pattern, the first byte on the wire in bits 15..8 (R46). -/
  | wirePair
  /-- One raw payload byte, 8 bits (R41, R42). -/
  | rawByte
  /-- The 3-bit response status (R52). -/
  | status3
  /-- The 2-bit code of the decoder's state register (R18). -/
  | state2
deriving DecidableEq, Repr

/-- The operand ports beside a code (R48, R51): the payload `PBUF[0 .. N)` of `ENCODE` (its length is `N`), the byte
`b` of `DEC_BYTE`, the capacity `C` of `RX_RECEIVE_FRAME`. An operation reads only the ports it names. -/
structure Operands where
  payload  : List Byte
  byte     : Byte
  capacity : Nat
deriving DecidableEq, Repr

/-- Every operand bit 0: the empty payload, the byte 0x00, the capacity 0. -/
def Operands.zero : Operands := { payload := [], byte := 0#8, capacity := 0 }

/-- The operations that have no code because only the Receiver invokes them (R50), each by its name in the table:
the four queue operations, the two port requests and the event output. -/
inductive InternalOp where
  | qPush (w : List Byte)
  | qPop
  | qLen
  | qReset
  | recv
  | cancelSample
  | evBadEscape
deriving DecidableEq, Repr

/-- One transaction presented to the block: a code of a format with its operand ports, or an internal operation
called by name. The code's bits are those of the table; every bit above the format's width must be 0. -/
inductive Xact where
  | coded (fmt : Fmt) (code : BitVec 16) (ops : Operands)
  | call (op : InternalOp)
deriving DecidableEq, Repr

/-- The transactions a host can present: command codes, and wire symbols, each of which is `DEC_BYTE` of its bytes.
Everything else has no command code, "because only the Receiver invokes them" (R50). -/
def Xact.hostIssuable : Xact → Bool
  | .coded .cmd4 _ _     => true
  | .coded .wireByte _ _ => true
  | .coded .wirePair _ _ => true
  | .coded .rawByte _ _  => false
  | .coded .status3 _ _  => false
  | .coded .state2 _ _   => false
  | .call _              => false

end Sys2Proof
end

