-- ==== Sys2Proof/Config.lean ====
section
/-! DEFINITION. The construction parameters (R7, R8), fixed when an instance is built, and the values the spec leaves
unspecified (93_implementation_defined.md U2). A machine carries its parameters in `State.cfg`, which no step writes,
so that a statement about every state is a statement about every instance. -/

namespace Sys2Proof

/-- `VARIANT`: which escape table the instance uses (R7, R8, R41). -/
inductive Variant where
  | standard
  | threeWire
deriving DecidableEq, Repr

/-- The six construction parameters of R7. -/
structure Config where
  /-- `VARIANT` -/
  variant : Variant
  /-- `ENC_CAP`, capacity in bytes of `OBUF`. -/
  encCap : Nat
  /-- `DEC_CAP`, capacity in bytes of `DBUF`. -/
  decCap : Nat
  /-- `Q_CAP`, capacity in bytes of the byte queue. -/
  qCap : Nat
  /-- `S`, size in bytes of `SCRATCH`, the most one `recv` request asks for. -/
  scratchSize : Nat
  /-- `LEN_W`, width in bits of every length and capacity value on a port. -/
  lenW : Nat
deriving DecidableEq, Repr

/-- The constraints of R7. A configuration that breaks one is not an instance of this hardware (U9): the machine's
invariants carry this as a premise. -/
abbrev Config.Valid (c : Config) : Prop :=
  1 ≤ c.decCap ∧ 1 ≤ c.scratchSize ∧ c.scratchSize ≤ c.qCap ∧
    c.encCap < 2 ^ c.lenW ∧ c.decCap < 2 ^ c.lenW ∧ c.qCap < 2 ^ c.lenW

/-- The parameters of the one instance that `State.reset` is. DESIGN CHOICE (log entry 1): the spec gives no value for
any of the six; every statement of the package is about every `Config`. -/
def Config.atReset : Config :=
  { variant := .threeWire, encCap := 16, decCap := 8, qCap := 8, scratchSize := 8, lenW := 8 }

/-- The byte buffers of R27 that are state of the machine. -/
inductive Buf where
  | obuf
  | dbuf
  | scratch
  | out
deriving DecidableEq, Repr

/-- FREE VALUE (log entry 3): the byte that a cell holds which nothing has written since the buffer's contents were
last unspecified (R26, U2: "any value"). It is applied to the buffer, to `State.freeGen`, which block reset advances,
and to the index. It has no body, so nothing can be proved about the byte. -/
opaque Config.freeByte : Buf → Nat → Nat → Byte

end Sys2Proof
end

