-- ==== Sys2Proof/Machine/Codes.lean ====
section
/-! DEFINITION. The two enumerations that have numeric codes of the spec's own: the response status (R52) and the
decoder's state register (R18). -/

namespace Sys2Proof.Machine

/-- The status of a response (R52). The codes 6 and 7 are never produced and have no name here. -/
inductive Status where
  | ok
  | overflow
  | badEscape
  | bufferTooSmall
  | transportError
  | cancelled
deriving DecidableEq, Repr

/-- The 3-bit code of a status (R52). -/
def statusCode : Status → BitVec 3
  | .ok             => 0#3
  | .overflow       => 1#3
  | .badEscape      => 2#3
  | .bufferTooSmall => 3#3
  | .transportError => 4#3
  | .cancelled      => 5#3

/-- The four values of `dec.state` (R18). -/
inductive DecState where
  | idle
  | frameOpen
  | decoding
  | escaping
deriving DecidableEq, Repr

/-- The 2-bit code of a decoder state (R18), which no operation shows. -/
def decStateCode : DecState → BitVec 2
  | .idle      => 0#2
  | .frameOpen => 1#2
  | .decoding  => 2#2
  | .escaping  => 3#2

end Sys2Proof.Machine
end

