-- ==== Sys2Proof/Machine/Escape.lean ====
section
/-! DEFINITION. The wire codes and the escape table (30_encoding.md, R39 to R45): everything depends on `VARIANT` and
on nothing else (R36, R41). -/

namespace Sys2Proof.Machine

/-- `END` = 0xC0, the frame marker (R40). -/
def bEnd : Byte := 0xC0#8
/-- `ESC` = 0xDB, the escape prefix byte (R40). -/
def bEsc : Byte := 0xDB#8
/-- `ESC_END` = 0xDC, the second byte standing for raw 0xC0 (R40). -/
def bEscEnd : Byte := 0xDC#8
/-- `ESC_ESC` = 0xDD, the second byte standing for raw 0xDB (R40). -/
def bEscEsc : Byte := 0xDD#8
/-- `ESC_11` = 0xDE, the second byte standing for raw 0x11, `ThreeWire` only (R40). -/
def bEsc11 : Byte := 0xDE#8
/-- `ESC_13` = 0xDF, the second byte standing for raw 0x13, `ThreeWire` only (R40). -/
def bEsc13 : Byte := 0xDF#8

/-- The escape table of R41: the second byte a raw byte is escaped with, or none when the table in force has no row
for it. -/
def escSecond (v : Variant) (b : Byte) : Option Byte :=
  if b = 0xC0#8 then some bEscEnd
  else if b = 0xDB#8 then some bEscEsc
  else if b = 0x11#8 ∧ v = .threeWire then some bEsc11
  else if b = 0x13#8 ∧ v = .threeWire then some bEsc13
  else none

/-- `b ∈ RESERVED(VARIANT)` (R41). -/
def reserved (v : Variant) (b : Byte) : Bool := (escSecond v b).isSome

/-- `esc(b)`: the 1- or 2-byte wire sequence of a raw byte (R42). -/
def esc (v : Variant) (b : Byte) : List Byte :=
  match escSecond v b with
  | some s => [bEsc, s]
  | none   => [b]

/-- `unesc(b)`: the raw byte an escape second byte stands for, or none (R43). -/
def unesc (v : Variant) (b : Byte) : Option Byte :=
  if b = 0xDC#8 then some 0xC0#8
  else if b = 0xDD#8 then some 0xDB#8
  else if b = 0xDE#8 ∧ v = .threeWire then some 0x11#8
  else if b = 0xDF#8 ∧ v = .threeWire then some 0x13#8
  else none

/-- The class of a wire byte (R45). -/
inductive Cls where
  | endMark
  | escMark
  | other
deriving DecidableEq, Repr

/-- `cls(b)`; the class does not depend on `VARIANT` (R45). -/
def cls (b : Byte) : Cls :=
  if b = 0xC0#8 then .endMark else if b = 0xDB#8 then .escMark else .other

/-- The escaped payload: every byte replaced by its wire sequence, in order (R39, R42). -/
def escapeAll (v : Variant) : List Byte → List Byte
  | []     => []
  | b :: p => esc v b ++ escapeAll v p

/-- The frame `END <escaped payload> END` (R39, R54). -/
def frame (v : Variant) (p : List Byte) : List Byte :=
  [bEnd] ++ escapeAll v p ++ [bEnd]

/-- The frame length `L = 2 + sum of |esc(p[i])|`, computed before anything is written (R54). -/
def frameLen (v : Variant) (p : List Byte) : Nat :=
  2 + (p.map fun b => (esc v b).length).sum

end Sys2Proof.Machine
end

