-- ==== Sys2Proof/Syntax.lean ====
section
/-! DEFINITION. The instructions: one constructor per row of opcode_table.json, in the table's order. -/

namespace Sys2Proof

/-- Every row of opcode_table.json. The hardware has no instruction set (R2): an "instruction" is a transaction with
the block or one of its own micro-operations, and each row is given the effect its rule gives it. -/
inductive Instr where
  /-- `END`: the wire byte 0xC0 reaches the Decoder (R40, R62). -/
  | wireEnd
  /-- `ESC`: the wire byte 0xDB reaches the Decoder (R40, R62). -/
  | wireEsc
  /-- `DATA`: any other wire byte reaches the Decoder (R45, R62). -/
  | wireData (b : Byte)
  /-- `SEQ_ESC_END`: the wire pair 0xDB 0xDC (R46, R67). -/
  | seqEscEnd
  /-- `SEQ_ESC_ESC`: the wire pair 0xDB 0xDD (R46, R67). -/
  | seqEscEsc
  /-- `SEQ_ESC_11`: the wire pair 0xDB 0xDE (R46, R67). -/
  | seqEsc11
  /-- `SEQ_ESC_13`: the wire pair 0xDB 0xDF (R46, R67). -/
  | seqEsc13
  /-- `SEQ_BAD`: the wire pair 0xDB s, s no second byte of the table in force (R47, R69). -/
  | seqBad (s : Byte)
  /-- `RAW_C0`: the Encoder takes the raw payload byte 0xC0 (R42, R57). -/
  | rawC0
  /-- `RAW_DB`: the Encoder takes the raw payload byte 0xDB (R42, R57). -/
  | rawDB
  /-- `RAW_11`: the Encoder takes the raw payload byte 0x11 (R42, R57). -/
  | raw11
  /-- `RAW_13`: the Encoder takes the raw payload byte 0x13 (R42, R57). -/
  | raw13
  /-- `RAW_OTHER`: the Encoder takes an unreserved raw payload byte (R42, R57). -/
  | rawOther (b : Byte)
  /-- `ENCODE` of the payload `PBUF[0 .. N)` (R54). -/
  | encode (payload : List Byte)
  /-- `DEC_BYTE` (R61). -/
  | decByte (b : Byte)
  /-- `DEC_HAS_FRAME` (R71). -/
  | decHasFrame
  /-- `DEC_TAKE_FRAME` (R72). -/
  | decTakeFrame
  /-- `DEC_RESET` (R73). -/
  | decReset
  /-- `RX_RECEIVE_FRAME` with the caller's capacity `C` (R85). -/
  | rxReceiveFrame (capacity : Nat)
  /-- `CMD_RESERVED_0` (R49). -/
  | cmdReserved0
  /-- `CMD_RESERVED_7` (R49). -/
  | cmdReserved7
  /-- `CMD_RESERVED_8_F`: the code 8 + x (R49). -/
  | cmdReserved8F (x : BitVec 3)
  /-- `Q_PUSH` (R78). -/
  | qPush (w : List Byte)
  /-- `Q_POP` (R79). -/
  | qPop
  /-- `Q_LEN` (R80). -/
  | qLen
  /-- `Q_RESET` (R81). -/
  | qReset
  /-- `recv`: one request of `S` bytes to the transport (R83). -/
  | recv
  /-- `cancel_sample` (R84). -/
  | cancelSample
  /-- `ev_bad_escape` (R100). -/
  | evBadEscape
  /-- `ST_Ok`: the running operation completes with status `Ok` (R11, R52). -/
  | stOk
  /-- `ST_Overflow` (R11, R52, R94, R95). -/
  | stOverflow
  /-- `ST_BadEscape` (R11, R52, R96). -/
  | stBadEscape
  /-- `ST_BufferTooSmall` (R11, R52, R97). -/
  | stBufferTooSmall
  /-- `ST_TransportError` (R11, R52, R98). -/
  | stTransportError
  /-- `ST_Cancelled` (R11, R52, R99). -/
  | stCancelled
  /-- `ST_NEVER_6_7`: the status code 6 + x, never produced (R52). -/
  | stNever67 (x : BitVec 1)
  /-- `STATE_Idle`: the transition `dec.state <- Idle` (R11, R18). -/
  | stateIdle
  /-- `STATE_FrameOpen`: the transition `dec.state <- FrameOpen` (R11, R18). -/
  | stateFrameOpen
  /-- `STATE_Decoding`: the transition `dec.state <- Decoding` (R11, R18). -/
  | stateDecoding
  /-- `STATE_Escaping`: the transition `dec.state <- Escaping` (R11, R18). -/
  | stateEscaping
deriving DecidableEq, Repr

end Sys2Proof
end

