-- ==== Sys2Proof/WellFormed.lean ====
section
/-! DEFINITION. When an instruction is one its row of opcode_table.json admits, under an instance's parameters. -/

namespace Sys2Proof

/-- The checks, by name. -/
inductive IllFormed where
  /-- `DATA b` with b = 0xC0 or 0xDB (the row's constraint, R45). -/
  | dataByteIsMarker
  /-- `SEQ_ESC_11`, `SEQ_ESC_13`, `RAW_11` or `RAW_13` in a `Standard` instance, whose table lacks the row (R41). -/
  | rowNotInVariant
  /-- `SEQ_BAD s` where `unesc(s)` is defined (the row's constraint, R43). -/
  | secondByteIsDesignated
  /-- `RAW_OTHER b` with b reserved (the row's constraint, R41). -/
  | rawByteIsReserved
  /-- `ENCODE` with `N >= 2^LEN_W` (R51, U8). -/
  | payloadTooLong
  /-- `RX_RECEIVE_FRAME` with `C >= 2^LEN_W` (R51, U8). -/
  | capacityTooLarge
deriving DecidableEq, Repr

/-- The check an instruction fails under the parameters `c`, if any. -/
def wfCheck (c : Config) : Instr → Option IllFormed
  | .wireData b => if Machine.cls b = .other then none else some .dataByteIsMarker
  | .seqEsc11 | .seqEsc13 | .raw11 | .raw13 => if c.variant = .threeWire then none else some .rowNotInVariant
  | .seqBad s => if Machine.unesc c.variant s = none then none else some .secondByteIsDesignated
  | .rawOther b => if Machine.reserved c.variant b = false then none else some .rawByteIsReserved
  | .encode p => if p.length < 2 ^ c.lenW then none else some .payloadTooLong
  | .rxReceiveFrame n => if n < 2 ^ c.lenW then none else some .capacityTooLarge
  | .wireEnd | .wireEsc | .seqEscEnd | .seqEscEsc | .rawC0 | .rawDB | .decByte _ | .decHasFrame | .decTakeFrame
  | .decReset | .cmdReserved0 | .cmdReserved7 | .cmdReserved8F _ | .qPush _ | .qPop | .qLen | .qReset | .recv
  | .cancelSample | .evBadEscape | .stOk | .stOverflow | .stBadEscape | .stBufferTooSmall | .stTransportError
  | .stCancelled | .stNever67 _ | .stateIdle | .stateFrameOpen | .stateDecoding | .stateEscaping => none

/-- The instruction passes every check. -/
abbrev WellFormed (c : Config) (i : Instr) : Prop := wfCheck c i = none

end Sys2Proof
end

