-- ==== Sys2Proof/Decode.lean ====
section
/-! DEFINITION. From a transaction at a port to an instruction, or a rejection by name; the encoder after it, written
from the same tables of 30_encoding.md; the wire's own prefix code (R46); and the host's table words. -/

namespace Sys2Proof

/-- The number of bits of a format's code (the table's `width`). -/
def fmtWidth : Fmt → Nat
  | .cmd4     => 4
  | .wireByte => 8
  | .wirePair => 16
  | .rawByte  => 8
  | .status3  => 3
  | .state2   => 2

/-- Why a transaction is no instruction. -/
inductive DecodeReject where
  /-- A bit above the format's width is set. -/
  | codeTooWide (fmt : Fmt)
  /-- A 16-bit pattern whose first byte is not `ESC`: no two-byte symbol begins so (R46). -/
  | notAnEscapePair
  /-- `N` does not fit its `LEN_W`-bit port (R51, U8). -/
  | payloadTooLong
  /-- `C` does not fit its `LEN_W`-bit port (R51, U8). -/
  | capacityTooLarge
deriving DecidableEq, Repr

/-- What the decoder answers. -/
inductive Decoded where
  | instr (i : Instr)
  | reject (why : DecodeReject)
deriving DecidableEq, Repr

/-- The command port (R48, R49). A reserved code decodes to its row; that it is not accepted is that row's meaning. -/
def decodeCmd (c : Config) (code : Nat) (ops : Operands) : Decoded :=
  match code with
  | 0 => .instr .cmdReserved0
  | 1 => if ops.payload.length < 2 ^ c.lenW then .instr (.encode ops.payload) else .reject .payloadTooLong
  | 2 => .instr (.decByte ops.byte)
  | 3 => .instr .decHasFrame
  | 4 => .instr .decTakeFrame
  | 5 => .instr .decReset
  | 6 => if ops.capacity < 2 ^ c.lenW then .instr (.rxReceiveFrame ops.capacity) else .reject .capacityTooLarge
  | 7 => .instr .cmdReserved7
  | n => if n < 16 then .instr (.cmdReserved8F (BitVec.ofNat 3 n)) else .reject (.codeTooWide .cmd4)

/-- One wire byte as a symbol: `END`, `ESC` or a data byte, by its class (R40, R45). -/
def decodeWireByte (b : Byte) : Instr :=
  match Machine.cls b with
  | .endMark => .wireEnd
  | .escMark => .wireEsc
  | .other   => .wireData b

/-- The symbol that `ESC` and the second byte `s` make (R43, R46): the row of the table in force, else `SEQ_BAD`. -/
def decodeSecond (v : Variant) (s : Byte) : Instr :=
  if s = 0xDC#8 then .seqEscEnd
  else if s = 0xDD#8 then .seqEscEsc
  else if s = 0xDE#8 ∧ v = .threeWire then .seqEsc11
  else if s = 0xDF#8 ∧ v = .threeWire then .seqEsc13
  else .seqBad s

/-- A raw payload byte by its row of the escape table in force (R41). -/
def decodeRaw (v : Variant) (b : Byte) : Instr :=
  if b = 0xC0#8 then .rawC0
  else if b = 0xDB#8 then .rawDB
  else if b = 0x11#8 ∧ v = .threeWire then .raw11
  else if b = 0x13#8 ∧ v = .threeWire then .raw13
  else .rawOther b

/-- The status codes (R52). -/
def decodeStatus (code : Nat) : Decoded :=
  match code with
  | 0 => .instr .stOk
  | 1 => .instr .stOverflow
  | 2 => .instr .stBadEscape
  | 3 => .instr .stBufferTooSmall
  | 4 => .instr .stTransportError
  | 5 => .instr .stCancelled
  | 6 => .instr (.stNever67 0#1)
  | 7 => .instr (.stNever67 1#1)
  | _ => .reject (.codeTooWide .status3)

/-- The codes of `dec.state` (R18). -/
def decodeState (code : Nat) : Decoded :=
  match code with
  | 0 => .instr .stateIdle
  | 1 => .instr .stateFrameOpen
  | 2 => .instr .stateDecoding
  | 3 => .instr .stateEscaping
  | _ => .reject (.codeTooWide .state2)

/-- An internal operation called by its name (R50). -/
def decodeCall : InternalOp → Instr
  | .qPush w      => .qPush w
  | .qPop         => .qPop
  | .qLen         => .qLen
  | .qReset       => .qReset
  | .recv         => .recv
  | .cancelSample => .cancelSample
  | .evBadEscape  => .evBadEscape

/-- The decoder, total on every transaction. -/
def decode (c : Config) : Xact → Decoded
  | .coded .cmd4 code ops => decodeCmd c code.toNat ops
  | .coded .wireByte code _ =>
    if code.toNat < 256 then .instr (decodeWireByte (code.setWidth 8)) else .reject (.codeTooWide .wireByte)
  | .coded .wirePair code _ =>
    if code.extractLsb' 8 8 = 0xDB#8 then .instr (decodeSecond c.variant (code.setWidth 8)) else .reject .notAnEscapePair
  | .coded .rawByte code _ =>
    if code.toNat < 256 then .instr (decodeRaw c.variant (code.setWidth 8)) else .reject (.codeTooWide .rawByte)
  | .coded .status3 code _ => decodeStatus code.toNat
  | .coded .state2 code _ => decodeState code.toNat
  | .call op => .instr (decodeCall op)

/-- A code with every operand port 0. -/
def bare (fmt : Fmt) (code : BitVec 16) : Xact := .coded fmt code Operands.zero

/-- The encoder: the transaction that asks for an instruction, its code from the tables of R18, R40, R41, R48, R52. -/
def encode : Instr → Xact
  | .wireEnd          => bare .wireByte 0xC0#16
  | .wireEsc          => bare .wireByte 0xDB#16
  | .wireData b       => bare .wireByte (b.setWidth 16)
  | .seqEscEnd        => bare .wirePair 0xDBDC#16
  | .seqEscEsc        => bare .wirePair 0xDBDD#16
  | .seqEsc11         => bare .wirePair 0xDBDE#16
  | .seqEsc13         => bare .wirePair 0xDBDF#16
  | .seqBad s         => bare .wirePair (0xDB#8 ++ s)
  | .rawC0            => bare .rawByte 0xC0#16
  | .rawDB            => bare .rawByte 0xDB#16
  | .raw11            => bare .rawByte 0x11#16
  | .raw13            => bare .rawByte 0x13#16
  | .rawOther b       => bare .rawByte (b.setWidth 16)
  | .encode p         => .coded .cmd4 0x1#16 { Operands.zero with payload := p }
  | .decByte b        => .coded .cmd4 0x2#16 { Operands.zero with byte := b }
  | .decHasFrame      => bare .cmd4 0x3#16
  | .decTakeFrame     => bare .cmd4 0x4#16
  | .decReset         => bare .cmd4 0x5#16
  | .rxReceiveFrame n => .coded .cmd4 0x6#16 { Operands.zero with capacity := n }
  | .cmdReserved0     => bare .cmd4 0x0#16
  | .cmdReserved7     => bare .cmd4 0x7#16
  | .cmdReserved8F x  => bare .cmd4 (0x8#16 ||| x.setWidth 16)
  | .qPush w          => .call (.qPush w)
  | .qPop             => .call .qPop
  | .qLen             => .call .qLen
  | .qReset           => .call .qReset
  | .recv             => .call .recv
  | .cancelSample     => .call .cancelSample
  | .evBadEscape      => .call .evBadEscape
  | .stOk             => bare .status3 0x0#16
  | .stOverflow       => bare .status3 0x1#16
  | .stBadEscape      => bare .status3 0x2#16
  | .stBufferTooSmall => bare .status3 0x3#16
  | .stTransportError => bare .status3 0x4#16
  | .stCancelled      => bare .status3 0x5#16
  | .stNever67 x      => bare .status3 (0x6#16 ||| x.setWidth 16)
  | .stateIdle        => bare .state2 0x0#16
  | .stateFrameOpen   => bare .state2 0x1#16
  | .stateDecoding    => bare .state2 0x2#16
  | .stateEscaping    => bare .state2 0x3#16

/-! ### The wire as a prefix code (R46) -/

/-- The first symbol of a stream of wire bytes seen while a frame is open, and the bytes after it: `ESC` announces a
second byte, every other byte is a symbol by itself (R46). An `ESC` that ends the stream is a symbol not yet complete. -/
def wireSymbol (v : Variant) : List Byte → Option (Instr × List Byte)
  | []     => none
  | b :: w =>
    match Machine.cls b, w with
    | .escMark, s :: w' => some (decodeSecond v s, w')
    | _, _              => some (decodeWireByte b, w)

/-- All symbols of a stream, `fuel` at most. -/
def wireSymbolsUpTo (v : Variant) : Nat → List Byte → List Instr
  | 0, _        => []
  | fuel + 1, w =>
    match wireSymbol v w with
    | none         => []
    | some (i, w') => i :: wireSymbolsUpTo v fuel w'

/-- All symbols of a stream: there are at most as many as bytes. -/
def wireSymbols (v : Variant) (w : List Byte) : List Instr := wireSymbolsUpTo v w.length w

/-- The symbol that stands for a raw payload byte on the wire (R41, R46). -/
def symbolOf (v : Variant) (b : Byte) : Instr :=
  match Machine.escSecond v b with
  | some s => decodeSecond v s
  | none   => .wireData b

/-! ### The host's table words -/

/-- The transaction a word of opcode_table.json stands for, its operand ports 0. Rows of different formats have the
same word, and `nbits` is in whole bytes, so the word alone does not name the row (log entry 9): 16 bits are a wire
pair; of 8 bits, a word below 0x10 is a command code, 0x11 and 0x13 are raw payload bytes (only the raw-byte rows have
these words as a row of their own), and every other word is a wire byte. The narrower widths name their format. -/
def tableXact (nbits w : Nat) : Option Xact :=
  match nbits with
  | 2  => some (bare .state2 (BitVec.ofNat 16 w))
  | 3  => some (bare .status3 (BitVec.ofNat 16 w))
  | 4  => some (bare .cmd4 (BitVec.ofNat 16 w))
  | 8  =>
    if w < 16 then some (bare .cmd4 (BitVec.ofNat 16 w))
    else if w = 0x11 ∨ w = 0x13 then some (bare .rawByte (BitVec.ofNat 16 w))
    else some (bare .wireByte (BitVec.ofNat 16 w))
  | 16 => some (bare .wirePair (BitVec.ofNat 16 w))
  | _  => none

/-- The instruction the decoder reads from a word of opcode_table.json, in the instance `State.reset` is. -/
def decodeTableWord (nbits w : Nat) : Option Instr :=
  match tableXact nbits w with
  | none   => none
  | some x =>
    match decode Config.atReset x with
    | .instr i  => some i
    | .reject _ => none

end Sys2Proof
end

