-- ==== Sys2Proof/Machine/Memory.lean ====
section
/-! DEFINITION. One byte buffer (R27): its own address space, a byte array indexed from 0. Held as the list of the cells
that have been written, in one canonical form: indices strictly rising, so that equal buffers are equal lists. A cell
that is not listed has NO value here (log entry 2): its contents are unspecified (R26, U2). -/

namespace Sys2Proof.Machine

/-- The written cells of one buffer. -/
abbrev Memory := List Host.Cell

/-- The canonical form: indices strictly rising. (An unlisted cell reads as no byte at all, so no cell can be equal to
what an unlisted one reads as.) -/
abbrev Memory.wf (m : Memory) : Prop := m.Pairwise fun a b => a.1 < b.1

/-- `MemRead(B, i)` (R11): the byte written at index `i`, or none where nothing has been written. -/
def Memory.read : Memory → Nat → Option Byte
  | [], _          => none
  | (j, v) :: m, i => if i = j then some v else Memory.read m i

/-- `MemWrite(B, i, v)` (R11). -/
def Memory.write : Memory → Nat → Byte → Memory
  | [], i, v          => [(i, v)]
  | (j, u) :: m, i, v =>
    if i < j then (i, v) :: (j, u) :: m
    else if i = j then (i, v) :: m
    else (j, u) :: Memory.write m i v

/-- The bytes of `w` written at `i`, `i + 1`, ... in order. -/
def Memory.writeSeq : Memory → Nat → List Byte → Memory
  | m, _, []     => m
  | m, i, v :: w => Memory.writeSeq (Memory.write m i v) (i + 1) w

/-- A buffer whose contents are unspecified: nothing is written. -/
def Memory.unspecified : Memory := []

/-- Every written index is below the capacity `cap`. -/
abbrev Memory.within (m : Memory) (cap : Nat) : Prop := ∀ c ∈ m, c.1 < cap

/-- The first `n` cells have all been written. -/
abbrev Memory.filled (m : Memory) (n : Nat) : Prop := ∀ i < n, (Memory.read m i).isSome = true

end Sys2Proof.Machine
end

