-- ==== Sys2Proof/Machine/State.lean ====
section
/-! DEFINITION. The machine's state: the registers, buffers and queue of 10_state.md, what the environment offers at
the ports, what the block has shown at its outputs, and the reset values of R26. -/

namespace Sys2Proof.Machine

/-- An answer of the transport to `recv(S)` (R83). -/
inductive RecvAnswer where
  | data (w : List Byte)
  | noData
  | failure
deriving DecidableEq, Repr

/-- The value beside the status of a response (R48, R71, R72). -/
inductive RespValue where
  /-- No value. -/
  | none
  /-- `Ok(L)` of `ENCODE`: the length of the frame in `OBUF` (R54). Which command a response completes is known to
  whoever issued it, so the two lengths are two constructors: the sender of R60 acts on this one only. -/
  | frameLength (n : Nat)
  /-- `Ok(L)` of `RX_RECEIVE_FRAME`: the length of the payload in `OUT` (R87). -/
  | payloadLength (n : Nat)
  /-- `Ok(dec.has_frame)`. -/
  | bit (b : Bool)
  /-- `Ok(length, bytes)` of `DEC_TAKE_FRAME`. -/
  | bytes (n : Nat) (w : List Byte)
deriving DecidableEq, Repr

/-- The response that completes a command (R9, R52). -/
structure Response where
  status : Status
  value  : RespValue
deriving DecidableEq, Repr

/-- What an observer sees happen, in order (R10 (a), (d), (e)). -/
inductive Event where
  /-- A command completed with this response. -/
  | response (r : Response)
  /-- The Receiver asked the transport for at most `n` bytes (R83). -/
  | recvRequest (n : Nat)
  /-- The Receiver sampled the cancel request and saw `b` (R84). -/
  | cancelSampled (b : Bool)
  /-- One event on the port `ev_bad_escape` (R100). -/
  | badEscape
deriving DecidableEq, Repr

/-- The value an internal operation returned when it was invoked by itself (R50, R79, R80, R83, R84). -/
inductive Returned where
  | byte (b : Byte)
  | count (n : Nat)
  | bit (b : Bool)
  | answer (a : RecvAnswer)
deriving DecidableEq, Repr

/-- The machine's faults: there are none. "No behaviour of this block is treated as `fault` or `stuck`"
(93_implementation_defined.md): every error is a status in a response (R93), and every input the block does not take
is a refusal. The type has no constructor, so no step can answer a fault; this is safe. -/
inductive Fault where
deriving DecidableEq, Repr

/-- Why the machine has no step. Each is safe: nothing can be proved of what comes after it. -/
inductive Refusal where
  /-- Raised by exec's arm of an instruction that has no meaning yet. No arm raises it in this model; safe. -/
  | notModelled (mnemonic : String)
  /-- Raised by step: the transaction at the port is no instruction (R46, R51, U8); safe. -/
  | undecodable (why : DecodeReject)
  /-- Raised by the reserved command codes: "not accepted: the block takes no step" (R49, U7); safe. -/
  | reservedCommand (code : BitVec 4)
  /-- Raised by `DEC_BYTE`, and by the wire symbols, which are `DEC_BYTE` of their bytes, while a completed frame is
  pending: the command is held, "no step" (R63, U4); safe. -/
  | heldWhileFramePending
  /-- Raised by `Q_POP` on an empty queue: "not accepted (no step)" (R79, U6); safe. -/
  | popOfEmptyQueue
  /-- Raised by `recv` and by `RX_RECEIVE_FRAME` when the transport answers `Data(w)` with `|w| = 0` or `|w| > S`:
  "an answer outside it is refused (no step)" (R83, U5); safe. -/
  | recvAnswerOutOfRange
  /-- Raised by the status codes 6 and 7, "never produced" (R52); safe. -/
  | statusNeverProduced
deriving DecidableEq, Repr

/-- The whole state. -/
structure State where
  /-- The construction parameters (R7). No step writes them. -/
  cfg : Config
  /-- `enc.widx` (R16). -/
  encWidx : Nat
  /-- `OBUF` (R16, R27). -/
  obuf : Memory
  /-- `dec.idx` (R17). -/
  decIdx : Nat
  /-- `dec.has_frame` (R17, R19). -/
  decHasFrame : Bool
  /-- `dec.state` (R17, R18). -/
  decState : DecState
  /-- `DBUF` (R17, R27). -/
  dbuf : Memory
  /-- The byte queue `q`, oldest byte first (R20). -/
  q : List Byte
  /-- `SCRATCH`, the Receiver's landing area for one `recv` answer (R21, R27). -/
  scratch : Memory
  /-- `OUT`, the caller's buffer (R23, R27): the host's, written by a successful `RX_RECEIVE_FRAME` only. -/
  out : Memory
  /-- The running `RX_RECEIVE_FRAME` and its operand `C`, while it waits for the transport; none when no command runs
  (R14 (b), R92). -/
  rx : Option Nat
  /-- A `recv` request has been made and not yet answered (R83, R108). -/
  recvPending : Bool
  /-- The response of the last command that completed (R9). -/
  resp : Option Response
  /-- The value the last internal operation invoked by itself returned (the model's own field, log entry 7). -/
  returned : Option Returned
  /-- Everything observed so far, oldest first (R10, R100; the model's own field, log entry 7). -/
  trace : List Event
  /-- Input: the transactions presented to the block, the next one first (R9, R48). -/
  hostIn : List Xact
  /-- Input: the transport's answers to the next `recv` requests, in order (R83, D25). -/
  recvIn : List RecvAnswer
  /-- Input: the level of the cancel request (R84). -/
  cancelReq : Bool
  /-- Input: the levels the cancel request takes at the next samples, in order; after them it keeps its level (R84). -/
  cancelIn : List Bool
  /-- Input: the reset input `rst` is asserted (R109). -/
  rst : Bool
  /-- How often block reset has made the buffers' contents unspecified: the argument of the free values
  (the model's own field, log entry 3). -/
  freeGen : Nat
deriving DecidableEq, Repr

/-- An instance with the parameters `c` right after block reset (R26), nothing presented at any input. -/
def State.resetOf (c : Config) : State :=
  { cfg := c
    encWidx := 0
    obuf := Memory.unspecified
    decIdx := 0
    decHasFrame := false
    decState := .idle
    dbuf := Memory.unspecified
    q := []
    scratch := Memory.unspecified
    out := Memory.unspecified
    rx := none
    recvPending := false
    resp := none
    returned := none
    trace := []
    hostIn := []
    recvIn := []
    cancelReq := false
    cancelIn := []
    rst := false
    freeGen := 0 }

/-- The machine right after reset (R26, R109), with the parameters of log entry 1. -/
def State.reset : State := State.resetOf Config.atReset

end Sys2Proof.Machine
end

