-- ==== Sys2Proof/Machine/Flags.lean ====
section
/-! DEFINITION. The block's one flag, `dec.has_frame` (R19): what sets it, what clears it, what tests it. No operation
writes any other flag; the error statuses are values of a response and are latched nowhere. -/

namespace Sys2Proof.Machine

/-- Set by `DEC_BYTE` when an `END` arrives in `Decoding` (R66). -/
def State.setHasFrame (s : State) : State := { s with decHasFrame := true }

/-- Cleared by `DEC_RESET` and by block reset (R73, R109). -/
def State.clearHasFrame (s : State) : State := { s with decHasFrame := false }

/-- `DEC_BYTE` is held while a completed frame is pending (R63). -/
def State.held (s : State) : Bool := s.decHasFrame

end Sys2Proof.Machine
end

