-- ==== Sys2Proof/Machine/Operands.lean ====
section
/-! DEFINITION. The operand forms (R11, R51): the bytes of a buffer below a live length, and the tests of a length
against a capacity. The payload, the byte and the capacity of a command are arguments of its constructor. -/

namespace Sys2Proof.Machine

/-- The cells of a buffer. -/
def State.buffer (s : State) : Buf → Memory
  | .obuf    => s.obuf
  | .dbuf    => s.dbuf
  | .scratch => s.scratch
  | .out     => s.out

/-- The byte at index `i` of a buffer: what was written there, or the free byte of a cell nothing has written (U2). -/
def State.byteAt (s : State) (buf : Buf) (i : Nat) : Byte :=
  (Memory.read (s.buffer buf) i).getD (Config.freeByte buf s.freeGen i)

/-- `B[0 .. n)` (R11). -/
def State.bytesBelow (s : State) (buf : Buf) (n : Nat) : List Byte :=
  (List.range n).map (s.byteAt buf)

/-- `OBUF[0 .. enc.widx)`, the frame the host may read after `ENCODE` returned `Ok` (R10 (b), R16, R118). -/
def State.obufLive (s : State) : List Byte := s.bytesBelow .obuf s.encWidx

/-- `DBUF[0 .. dec.idx)`, the payload accumulated so far (R17, R72). -/
def State.dbufLive (s : State) : List Byte := s.bytesBelow .dbuf s.decIdx

/-- A whole frame of `n` bytes does not fit `OBUF` (R56). -/
def State.frameTooLong (s : State) (n : Nat) : Bool := decide (s.cfg.encCap < n)

/-- `dec.idx = DEC_CAP`: the next append does not fit (R68). -/
def State.dbufFull (s : State) : Bool := decide (s.decIdx = s.cfg.decCap)

/-- The pending frame of `dec.idx` bytes does not fit the caller's capacity `c` (R87). -/
def State.outTooSmall (s : State) (c : Nat) : Bool := decide (c < s.decIdx)

/-- The transport kept its obligation: `1 <= |w| <= S` (R83, U5). -/
def State.answerInRange (s : State) (w : List Byte) : Bool :=
  decide (1 ≤ w.length) && decide (w.length ≤ s.cfg.scratchSize)

end Sys2Proof.Machine
end

