-- ==== Sys2Proof/Machine/Ops.lean ====
section
/-! DEFINITION. The named operations over registers, buffers, queue and ports that the meanings share. -/

namespace Sys2Proof.Machine

/-- Completing a command with a response: `return Ok(v)` and `return Err(E)` of R11. This is also the block's whole
"trap entry": an error is the status of the response that completes the command; nothing is saved, nothing is
vectored, nothing is latched, and there is no return from it (R93, R104, R105). A running `RX_RECEIVE_FRAME` ends. -/
def State.respond (s : State) (st : Status) (v : RespValue) : State :=
  { s with resp := some { status := st, value := v }
           trace := s.trace ++ [.response { status := st, value := v }]
           rx := none }

/-- `return Ok(v)` (R11). -/
def State.respondOk (s : State) (v : RespValue) : State := s.respond .ok v

/-- `return Err(E)` (R11); an error response carries no further information (R93). -/
def State.respondErr (s : State) (e : Status) : State := s.respond e .none

/-- `dec.state <- X` (R11, R18). -/
def State.goto (s : State) (d : DecState) : State := { s with decState := d }

/-- The effect of `DEC_RESET`: index, flag and state cleared, `DBUF` left as it is (R73). -/
def State.decoderReset (s : State) : State := { s.clearHasFrame with decIdx := 0, decState := .idle }

/-- The append primitive of the Decoder; none when the byte does not fit (R68). -/
def State.append (s : State) (v : Byte) : Option State :=
  if s.dbufFull then none
  else some { s with dbuf := Memory.write s.dbuf s.decIdx v, decIdx := s.decIdx + 1 }

/-- The Encoder's write of one byte at `enc.widx`, which advances (R54). -/
def State.emit (s : State) (v : Byte) : State :=
  { s with obuf := Memory.write s.obuf s.encWidx v, encWidx := s.encWidx + 1 }

/-- The Encoder's writes of a sequence at `enc.widx` (R54, R57). -/
def State.emitSeq (s : State) : List Byte → State
  | []     => s
  | v :: w => State.emitSeq (s.emit v) w

/-- The start of an `ENCODE`: `enc.widx <- 0`. What an earlier `ENCODE` left in `OBUF` at or beyond the live index is
unspecified (R59, R118, U2), so the buffer starts with nothing written. -/
def State.encoderStart (s : State) : State := { s with encWidx := 0, obuf := Memory.unspecified }

/-- `enc.widx <- 0; contents of OBUF become unspecified; return Err(Overflow)` (R54, R56, U1). -/
def State.encoderOverflow (s : State) : State := s.encoderStart.respondErr .overflow

/-- The queue's content replaced: the one write all four queue operations are made of (R20). -/
def State.setQueue (s : State) (q : List Byte) : State := { s with q := q }

/-- `Q_PUSH` of one byte: the oldest byte is dropped when the queue is full (R78). -/
def pushByte (cap : Nat) (q : List Byte) (b : Byte) : List Byte :=
  if q.length = cap then q.tail ++ [b] else q ++ [b]

/-- `Q_PUSH(w)` (R78). -/
def State.queuePush (s : State) (w : List Byte) : State := s.setQueue (w.foldl (pushByte s.cfg.qCap) s.q)

/-- `Q_POP`: the oldest byte and the state without it; none on an empty queue (R79). -/
def State.queuePop (s : State) : Option (Byte × State) :=
  match s.q with
  | []     => none
  | b :: r => some (b, s.setQueue r)

/-- `Q_LEN` (R80). -/
def State.queueLen (s : State) : Nat := s.q.length

/-- `Q_RESET` (R81). -/
def State.queueReset (s : State) : State := s.setQueue []

/-- `ev_bad_escape`: one event (R100). -/
def State.emitBadEscape (s : State) : State := { s with trace := s.trace ++ [.badEscape] }

/-- The level the cancel request has at this sample (R84). -/
def State.cancelLevel (s : State) : Bool :=
  match s.cancelIn with
  | []     => s.cancelReq
  | b :: _ => b

/-- The state after a cancel sample: the level read stays on the line, the sample is observed (R10 (d), R84). -/
def State.afterCancelSample (s : State) : State :=
  { s with cancelReq := s.cancelLevel, cancelIn := s.cancelIn.tail, trace := s.trace ++ [.cancelSampled s.cancelLevel] }

/-- The request half of `recv(S)`: the Receiver asks for at most `S` bytes, once (R83). A request that is already
outstanding is not made again. -/
def State.requestRecv (s : State) : State :=
  if s.recvPending then s
  else { s with recvPending := true, trace := s.trace ++ [.recvRequest s.cfg.scratchSize] }

/-- What comes of waiting on the transport port once. -/
inductive RecvResult where
  /-- No answer has come yet: "the block does nothing while it waits" (R83). -/
  | waiting (s : State)
  /-- The answer, taken. The bytes of `Data(w)` are in `SCRATCH[0 .. |w|)` (R86). -/
  | answered (a : RecvAnswer) (s : State)
  /-- The answer breaks the transport's obligation (U5). -/
  | illegal
deriving DecidableEq, Repr

/-- The answer to the outstanding request is taken from the transport. -/
def State.takeAnswer (s : State) (rest : List RecvAnswer) : State :=
  { s with recvIn := rest, recvPending := false }

/-- The bytes of an answer written to `SCRATCH[0 .. |w|)`; the rest of `SCRATCH` is unspecified (R21, R86, U2). -/
def State.fillScratch (s : State) (w : List Byte) : State :=
  { s with scratch := Memory.writeSeq Memory.unspecified 0 w }

/-- `recv(S)`: the request, and its answer when the transport has given one (R83). -/
def State.recvPoll (s : State) : RecvResult :=
  let s := s.requestRecv
  match s.recvIn with
  | []              => .waiting s
  | .noData :: r    => .answered .noData (s.takeAnswer r)
  | .failure :: r   => .answered .failure (s.takeAnswer r)
  | .data w :: r    => if s.answerInRange w then .answered (.data w) ((s.takeAnswer r).fillScratch w) else .illegal

/-- Block reset (R109): every state element at its reset value (R26), the effect of `DEC_RESET` and of `Q_RESET`
together; the contents of `OBUF`, `DBUF` and `SCRATCH` unspecified; a running command abandoned without a response;
`OUT` as it is; what the environment offers is the environment's and stays, the assertion itself is used up.
DESIGN CHOICE (log entry 18): the spec does not say what becomes of a `recv` request outstanding at block reset; here it
is withdrawn (`recvPending` cleared), no request is observed for that, and an answer that comes for it later, still an
input in `recvIn`, answers the next request. -/
def State.blockReset (s : State) : State :=
  { s.decoderReset.queueReset with
      encWidx := 0
      obuf := Memory.unspecified
      dbuf := Memory.unspecified
      scratch := Memory.unspecified
      rx := none
      recvPending := false
      resp := none
      returned := none
      rst := false
      freeGen := s.freeGen + 1 }

/-- The next transaction presented to the block, taken from the port. -/
def State.fetch (s : State) : Option (Xact × State) :=
  match s.hostIn with
  | []     => none
  | x :: r => some (x, { s with hostIn := r })

end Sys2Proof.Machine
end

