-- ==== Sys2Proof/Machine/Encoder.lean ====
section
/-! DEFINITION. The Encoder (40_encoder.md): `ENCODE`, and the raw-byte rows as its per-byte micro-operation. -/

namespace Sys2Proof.Machine

/-- `ENCODE(PBUF[0 .. N))` (R54): the whole frame's length is tested first, then the frame is written. -/
def execEncode (payload : List Byte) (s : State) : Host.Outcome State Fault Refusal :=
  let l := frameLen s.cfg.variant payload
  if s.frameTooLong l then .next s.encoderOverflow
  else .next ((s.encoderStart.emitSeq (frame s.cfg.variant payload)).respondOk (.frameLength l))

/-- One payload byte taken by the running Encoder: its escape sequence is written when it and a trailing `END` both
fit, and otherwise the encoding has overflowed, none (R57). -/
def State.encodeByte (s : State) (b : Byte) : Option State :=
  let e := esc s.cfg.variant b
  if s.frameTooLong (s.encWidx + e.length + 1) then none else some (s.emitSeq e)

/-- The raw-byte micro-operation as a step of its own: the bytes of `esc(b)` at `enc.widx`, or the Encoder's
`Overflow` (R42, R57). -/
def rawStep (b : Byte) (s : State) : Host.Outcome State Fault Refusal :=
  match s.encodeByte b with
  | none    => .next s.encoderOverflow
  | some s' => .next s'

/-- `RAW_C0` (R42). -/
def execRawC0 (s : State) : Host.Outcome State Fault Refusal := rawStep 0xC0#8 s
/-- `RAW_DB` (R42). -/
def execRawDB (s : State) : Host.Outcome State Fault Refusal := rawStep 0xDB#8 s
/-- `RAW_11` (R42): escaped in `ThreeWire`, verbatim in `Standard`. -/
def execRaw11 (s : State) : Host.Outcome State Fault Refusal := rawStep 0x11#8 s
/-- `RAW_13` (R42): escaped in `ThreeWire`, verbatim in `Standard`. -/
def execRaw13 (s : State) : Host.Outcome State Fault Refusal := rawStep 0x13#8 s
/-- `RAW_OTHER b` (R42). -/
def execRawOther (b : Byte) (s : State) : Host.Outcome State Fault Refusal := rawStep b s

/-- The payload loop of the incremental Encoder (R57). -/
def State.encodeBytes (s : State) : List Byte → Option State
  | []     => some s
  | b :: p =>
    match s.encodeByte b with
    | none    => none
    | some s' => State.encodeBytes s' p

/-- The incremental form of `ENCODE` that R57 allows an implementation. It is no instruction of its own: R57 says that
it and R54 are equivalent in everything an observer can see. -/
def encodeIncrementally (payload : List Byte) (s : State) : Host.Outcome State Fault Refusal :=
  if s.frameTooLong 2 then .next s.encoderOverflow
  else
    match (s.encoderStart.emit bEnd).encodeBytes payload with
    | none    => .next s.encoderOverflow
    | some s' => .next ((s'.emit bEnd).respondOk (.frameLength (s'.encWidx + 1)))

end Sys2Proof.Machine
end

