-- ==== Sys2Proof/Machine/Queue.lean ====
section
/-! DEFINITION. The four queue operations (42_queue.md) invoked by themselves; the Receiver's loop uses the shared
operations of Ops.lean that they are made of. -/

namespace Sys2Proof.Machine

/-- `Q_PUSH(w)` (R78). -/
def execQPush (w : List Byte) (s : State) : Host.Outcome State Fault Refusal := .next (s.queuePush w)

/-- `Q_POP` (R79): on an empty queue it has no step. -/
def execQPop (s : State) : Host.Outcome State Fault Refusal :=
  match s.queuePop with
  | none         => .refused .popOfEmptyQueue
  | some (b, s') => .next { s' with returned := some (.byte b) }

/-- `Q_LEN` (R80). -/
def execQLen (s : State) : Host.Outcome State Fault Refusal := .next { s with returned := some (.count s.queueLen) }

/-- `Q_RESET` (R81). -/
def execQReset (s : State) : Host.Outcome State Fault Refusal := .next s.queueReset

end Sys2Proof.Machine
end

