-- ==== Sys2Proof/Machine/Decoder.lean ====
section
/-! DEFINITION. The Decoder (41_decoder.md): the per-byte state machine, the four `DEC_*` commands, and the wire
symbols, each of which is `DEC_BYTE` of its bytes in order. -/

namespace Sys2Proof.Machine

/-- Append `v`, then `dec.state <- d`; `Overflow` with no change at all when `v` does not fit (R61, R68). -/
def State.appendThen (s : State) (v : Byte) (d : DecState) : Status × State :=
  match s.append v with
  | none    => (.overflow, s)
  | some s' => (.ok, s'.goto d)

/-- The `BadEscape` treatment (R69). -/
def State.dropFrame (s : State) : State := { s with decIdx := 0, decState := .idle }

/-- `DEC_BYTE(b)` once it is accepted: the status and the state (R61). -/
def State.decodeByte (s : State) (b : Byte) : Status × State :=
  match s.decState with
  | .idle =>
    match cls b with
    | .endMark => (.ok, s.goto .frameOpen)
    | .escMark => (.ok, s)
    | .other   => (.ok, s)
  | .frameOpen =>
    match cls b with
    | .endMark => (.ok, s)
    | .escMark => (.ok, s.goto .escaping)
    | .other   => s.appendThen b .decoding
  | .decoding =>
    match cls b with
    | .endMark => (.ok, s.setHasFrame.goto .idle)
    | .escMark => (.ok, s.goto .escaping)
    | .other   => s.appendThen b .decoding
  | .escaping =>
    match unesc s.cfg.variant b with
    | none   => (.badEscape, s.dropFrame)
    | some v => s.appendThen v .decoding

/-- One `DEC_BYTE` transaction: held while a completed frame is pending (R63), else the byte is decoded and the status
is the response (R61). -/
def feed (b : Byte) (s : State) : Host.Outcome State Fault Refusal :=
  if s.held then .refused .heldWhileFramePending
  else .next ((s.decodeByte b).2.respond (s.decodeByte b).1 .none)

/-- Two `DEC_BYTE` transactions, the first byte on the wire first (R46). -/
def feedPair (b c : Byte) (s : State) : Host.Outcome State Fault Refusal :=
  match feed b s with
  | .next s'   => feed c s'
  | .fault r   => .fault r
  | .refused r => .refused r

/-- `DEC_BYTE` (R61, R63). -/
def execDecByte (b : Byte) (s : State) : Host.Outcome State Fault Refusal := feed b s

/-- `DEC_HAS_FRAME` (R71). -/
def execDecHasFrame (s : State) : Host.Outcome State Fault Refusal := .next (s.respondOk (.bit s.decHasFrame))

/-- `DEC_TAKE_FRAME` (R72). -/
def execDecTakeFrame (s : State) : Host.Outcome State Fault Refusal :=
  .next (s.respondOk (.bytes s.decIdx s.dbufLive))

/-- `DEC_RESET` (R73). -/
def execDecReset (s : State) : Host.Outcome State Fault Refusal := .next (s.decoderReset.respondOk .none)

/-- The wire byte `END` (R62). -/
def execWireEnd (s : State) : Host.Outcome State Fault Refusal := feed bEnd s
/-- The wire byte `ESC` (R62). -/
def execWireEsc (s : State) : Host.Outcome State Fault Refusal := feed bEsc s
/-- A data byte on the wire (R62). -/
def execWireData (b : Byte) (s : State) : Host.Outcome State Fault Refusal := feed b s
/-- The wire pair `ESC ESC_END` (R46, R67). -/
def execSeqEscEnd (s : State) : Host.Outcome State Fault Refusal := feedPair bEsc bEscEnd s
/-- The wire pair `ESC ESC_ESC` (R46, R67). -/
def execSeqEscEsc (s : State) : Host.Outcome State Fault Refusal := feedPair bEsc bEscEsc s
/-- The wire pair `ESC ESC_11` (R46, R67); in `Standard` its second byte is not designated (R43). -/
def execSeqEsc11 (s : State) : Host.Outcome State Fault Refusal := feedPair bEsc bEsc11 s
/-- The wire pair `ESC ESC_13` (R46, R67); in `Standard` its second byte is not designated (R43). -/
def execSeqEsc13 (s : State) : Host.Outcome State Fault Refusal := feedPair bEsc bEsc13 s
/-- The wire pair `ESC s` with s no second byte of the table (R47, R69). -/
def execSeqBad (c : Byte) (s : State) : Host.Outcome State Fault Refusal := feedPair bEsc c s

/-- `dec.state <- Idle` (R11, R18). -/
def execStateIdle (s : State) : Host.Outcome State Fault Refusal := .next (s.goto .idle)
/-- `dec.state <- FrameOpen` (R11, R18). -/
def execStateFrameOpen (s : State) : Host.Outcome State Fault Refusal := .next (s.goto .frameOpen)
/-- `dec.state <- Decoding` (R11, R18). -/
def execStateDecoding (s : State) : Host.Outcome State Fault Refusal := .next (s.goto .decoding)
/-- `dec.state <- Escaping` (R11, R18). -/
def execStateEscaping (s : State) : Host.Outcome State Fault Refusal := .next (s.goto .escaping)

end Sys2Proof.Machine
end

