-- ==== Sys2Proof/Machine/Receiver.lean ====
section
/-! DEFINITION. The Receiver (43_receiver.md): the port transactions, and `RX_RECEIVE_FRAME` as the loop of R86, one
function per step A, B, C. A command that must wait for the transport stays in `State.rx` and is resumed by the next
step (R92). -/

namespace Sys2Proof.Machine

/-- `recv(S)` by itself (R83): the request, and the answer when there is one. -/
def execRecv (s : State) : Host.Outcome State Fault Refusal :=
  match s.recvPoll with
  | .waiting s'    => .next s'
  | .answered a s' => .next { s' with returned := some (.answer a) }
  | .illegal       => .refused .recvAnswerOutOfRange

/-- `cancel_sample()` by itself (R84). -/
def execCancelSample (s : State) : Host.Outcome State Fault Refusal :=
  .next { s.afterCancelSample with returned := some (.bit s.cancelLevel) }

/-- `ev_bad_escape` by itself (R100). -/
def execEvBadEscape (s : State) : Host.Outcome State Fault Refusal := .next s.emitBadEscape

/-- How one iteration of the loop ends (R86). -/
inductive Turn where
  /-- The command returned: the state with its response. -/
  | returned (s : State)
  /-- The command waits for the transport's answer (R83). -/
  | waits (s : State)
  /-- The next iteration follows. -/
  | again (s : State)
  /-- No step: the transport broke its obligation (U5). -/
  | refuses (r : Refusal)
deriving DecidableEq, Repr

/-- Step A, delivery of the pending frame (R87). -/
def deliver (c : Nat) (s : State) : Turn :=
  if s.outTooSmall c then .returned (s.decoderReset.respondErr .bufferTooSmall)
  else
    .returned (({ s with out := Memory.writeSeq s.out 0 s.dbufLive }).decoderReset.respondOk (.payloadLength s.decIdx))

/-- `Q_PUSH(SCRATCH[0 .. n))` (R86). -/
def State.pushScratch (s : State) (n : Nat) : State := s.queuePush (s.bytesBelow .scratch n)

/-- Step B after the cancel sample: the `recv` request and its answer (R88). -/
def refillFrom (s : State) : Turn :=
  match s.recvPoll with
  | .waiting s'            => .waits s'
  | .answered .failure s'  => .returned (s'.respondErr .transportError)
  | .answered .noData s'   => .again s'
  | .answered (.data w) s' => .again (s'.pushScratch w.length)
  | .illegal               => .refuses .recvAnswerOutOfRange

/-- Step B, refill (R88): the cancel request is sampled immediately before the `recv` request, and not again while
that request is outstanding.
DESIGN CHOICE (log entry 19): the spec does not say what becomes of a request that is outstanding when the command is
started (one that the `recv` row made by itself, or one whose waiting command was dropped by `withFetchWord`); here the
command takes it over, with no cancel sample and no request of its own before its answer. -/
def refill (s : State) : Turn :=
  if s.recvPending then refillFrom s
  else if s.cancelLevel then .returned (s.afterCancelSample.respondErr .cancelled)
  else refillFrom s.afterCancelSample

/-- Step C, the popped byte `b` given to the Decoder (R90). -/
def drain (b : Byte) (s : State) : Turn :=
  match s.decodeByte b with
  | (.badEscape, s') => .again s'.emitBadEscape
  | (.overflow, s')  => .returned (s'.decoderReset.respondErr .bufferTooSmall)
  | (_, s')          => .again s'

/-- One iteration of the loop (R86): step A when a frame is pending, else step B on an empty queue, else step C. -/
def turn (c : Nat) (s : State) : Turn :=
  if s.decHasFrame then deliver c s
  else
    match s.queuePop with
    | none         => refill s
    | some (b, s') => drain b s'

/-- The loop, `fuel` iterations at most. Running out of fuel would only end the step, not the command, which the next
step resumes; `loopWork` is enough fuel for it never to happen. -/
def loop (c : Nat) : Nat → State → Host.Outcome State Fault Refusal
  | 0, s        => .next s
  | fuel + 1, s =>
    match turn c s with
    | .returned s' => .next s'
    | .waits s'    => .next s'
    | .again s'    => loop c fuel s'
    | .refuses r   => .refused r

/-- The iterations an answer can give rise to: one to take it, one for each byte it brings. -/
def answerWork : RecvAnswer → Nat
  | .data w  => w.length + 1
  | .noData  => 1
  | .failure => 1

/-- More than the iterations left before the command returns or waits: each decodes a queued byte or takes an answer. -/
def State.loopWork (s : State) : Nat := s.q.length + (s.recvIn.map answerWork).sum + 1

/-- `RX_RECEIVE_FRAME(C)` carried on from where it stands: until it returns, or waits for the transport (R86, R92). -/
def runReceive (c : Nat) (s : State) : Host.Outcome State Fault Refusal := loop c s.loopWork s

/-- `RX_RECEIVE_FRAME(C)` (R85, R86). -/
def execRxReceiveFrame (c : Nat) (s : State) : Host.Outcome State Fault Refusal := runReceive c { s with rx := some c }

end Sys2Proof.Machine
end

