-- ==== Sys2Proof/Machine/Reserved.lean ====
section
/-! DEFINITION. The status rows as `return <status>` (R11, R52), and the rows the spec gives no step: the reserved
command codes (R49) and the status codes that are never produced (R52). -/

namespace Sys2Proof.Machine

/-- `ST_Ok`: the operation completes with `Ok` and no value (R11, R52). -/
def execStOk (s : State) : Host.Outcome State Fault Refusal := .next (s.respondOk .none)
/-- `ST_Overflow` (R11, R52). -/
def execStOverflow (s : State) : Host.Outcome State Fault Refusal := .next (s.respondErr .overflow)
/-- `ST_BadEscape` (R11, R52). -/
def execStBadEscape (s : State) : Host.Outcome State Fault Refusal := .next (s.respondErr .badEscape)
/-- `ST_BufferTooSmall` (R11, R52). -/
def execStBufferTooSmall (s : State) : Host.Outcome State Fault Refusal := .next (s.respondErr .bufferTooSmall)
/-- `ST_TransportError` (R11, R52). -/
def execStTransportError (s : State) : Host.Outcome State Fault Refusal := .next (s.respondErr .transportError)
/-- `ST_Cancelled` (R11, R52). -/
def execStCancelled (s : State) : Host.Outcome State Fault Refusal := .next (s.respondErr .cancelled)

/-- `ST_NEVER_6_7`: "never produced" (R52). -/
def execStNever67 (_x : BitVec 1) (_s : State) : Host.Outcome State Fault Refusal := .refused .statusNeverProduced

/-- `CMD_RESERVED_0`: "not accepted: the block takes no step" (R49). -/
def execCmdReserved0 (_s : State) : Host.Outcome State Fault Refusal := .refused (.reservedCommand 0x0#4)
/-- `CMD_RESERVED_7` (R49). -/
def execCmdReserved7 (_s : State) : Host.Outcome State Fault Refusal := .refused (.reservedCommand 0x7#4)
/-- `CMD_RESERVED_8_F`: the code 8 + x (R49). -/
def execCmdReserved8F (x : BitVec 3) (_s : State) : Host.Outcome State Fault Refusal :=
  .refused (.reservedCommand (0x8#4 ||| x.setWidth 4))

end Sys2Proof.Machine
end

