-- ==== Sys2Proof/Machine/Dispatch.lean ====
section
/-! DEFINITION. Which meaning each instruction has: one arm per constructor of `Instr`, in the table's order. -/

namespace Sys2Proof.Machine

def exec (i : Instr) (s : State) : Host.Outcome State Fault Refusal :=
  match i with
  | .wireEnd => Sys2Proof.Machine.execWireEnd s
  | .wireEsc => Sys2Proof.Machine.execWireEsc s
  | .wireData b => Sys2Proof.Machine.execWireData b s
  | .seqEscEnd => Sys2Proof.Machine.execSeqEscEnd s
  | .seqEscEsc => Sys2Proof.Machine.execSeqEscEsc s
  | .seqEsc11 => Sys2Proof.Machine.execSeqEsc11 s
  | .seqEsc13 => Sys2Proof.Machine.execSeqEsc13 s
  | .seqBad c => Sys2Proof.Machine.execSeqBad c s
  | .rawC0 => Sys2Proof.Machine.execRawC0 s
  | .rawDB => Sys2Proof.Machine.execRawDB s
  | .raw11 => Sys2Proof.Machine.execRaw11 s
  | .raw13 => Sys2Proof.Machine.execRaw13 s
  | .rawOther b => Sys2Proof.Machine.execRawOther b s
  | .encode payload => Sys2Proof.Machine.execEncode payload s
  | .decByte b => Sys2Proof.Machine.execDecByte b s
  | .decHasFrame => Sys2Proof.Machine.execDecHasFrame s
  | .decTakeFrame => Sys2Proof.Machine.execDecTakeFrame s
  | .decReset => Sys2Proof.Machine.execDecReset s
  | .rxReceiveFrame c => Sys2Proof.Machine.execRxReceiveFrame c s
  | .cmdReserved0 => Sys2Proof.Machine.execCmdReserved0 s
  | .cmdReserved7 => Sys2Proof.Machine.execCmdReserved7 s
  | .cmdReserved8F x => Sys2Proof.Machine.execCmdReserved8F x s
  | .qPush w => Sys2Proof.Machine.execQPush w s
  | .qPop => Sys2Proof.Machine.execQPop s
  | .qLen => Sys2Proof.Machine.execQLen s
  | .qReset => Sys2Proof.Machine.execQReset s
  | .recv => Sys2Proof.Machine.execRecv s
  | .cancelSample => Sys2Proof.Machine.execCancelSample s
  | .evBadEscape => Sys2Proof.Machine.execEvBadEscape s
  | .stOk => Sys2Proof.Machine.execStOk s
  | .stOverflow => Sys2Proof.Machine.execStOverflow s
  | .stBadEscape => Sys2Proof.Machine.execStBadEscape s
  | .stBufferTooSmall => Sys2Proof.Machine.execStBufferTooSmall s
  | .stTransportError => Sys2Proof.Machine.execStTransportError s
  | .stCancelled => Sys2Proof.Machine.execStCancelled s
  | .stNever67 x => Sys2Proof.Machine.execStNever67 x s
  | .stateIdle => Sys2Proof.Machine.execStateIdle s
  | .stateFrameOpen => Sys2Proof.Machine.execStateFrameOpen s
  | .stateDecoding => Sys2Proof.Machine.execStateDecoding s
  | .stateEscaping => Sys2Proof.Machine.execStateEscaping s

end Sys2Proof.Machine
end

