-- ==== Sys2Proof/Machine/Step.lean ====
section
/-! DEFINITION. One step of the machine, and how the host places an instruction for the next step. -/

namespace Sys2Proof.Machine

/-- One step. An asserted `rst` comes before everything (R109). A running `RX_RECEIVE_FRAME` goes on, and no other
command is accepted while it runs (R92). Otherwise the next transaction is taken from the port and its instruction
runs to completion (R9); with none presented the block does nothing. -/
def step (s : State) : Host.Outcome State Fault Refusal :=
  if s.rst then .next s.blockReset
  else
    match s.rx with
    | some c => runReceive c s
    | none   =>
      match s.fetch with
      | none         => .next s
      | some (x, s') =>
        match decode s.cfg x with
        | .instr i    => exec i s'
        | .reject why => .refused (.undecodable why)

/-- `s` with the transaction that the table word stands for presented next, `rst` released and no command running, so
that the very next step runs it (log entry 8). A word of no format places nothing. -/
def State.withFetchWord (s : State) (nbits w : Nat) : State :=
  match tableXact nbits w with
  | none   => s
  | some x => { s with hostIn := x :: s.hostIn, rst := false, rx := none }

end Sys2Proof.Machine
end

