-- ==== Sys2Proof/Machine/Pseudo.lean ====
section
/-! DEFINITION. The pseudo-operations of R53, in which the source's testable properties are written. -/

namespace Sys2Proof.Machine

/-- `encode(p)`: the bytes `OBUF[0 .. L)` after `ENCODE p` returned `Ok(L)`; none when it overflowed (R53). -/
def pseudoEncode (p : List Byte) (s : State) : Option (List Byte) :=
  match execEncode p s with
  | .next t    => if t.resp = some { status := .ok, value := .frameLength t.encWidx } then some t.obufLive else none
  | .fault _   => none
  | .refused _ => none

/-- The `DEC_BYTE` steps of `decode(w)`: in order, stopping early once a frame is ready; `BadEscape` does not stop the
sequence, `Overflow` does (R53). -/
def feedUntilFrame (s : State) : List Byte → State
  | []     => s
  | b :: w =>
    if s.decHasFrame then s
    else
      match s.decodeByte b with
      | (.overflow, s') => s'
      | (_, s')         => feedUntilFrame s' w

/-- `decode(w)`: `DEC_RESET`, the steps, and the payload if a frame is ready at the end (R53). -/
def pseudoDecode (w : List Byte) (s : State) : Option (List Byte) :=
  let t := feedUntilFrame s.decoderReset w
  if t.decHasFrame then some t.dbufLive else none

/-- The steps of `decode_all(w)`: each time a frame becomes ready its payload is recorded and `DEC_RESET` applied
(R53). Gives the recorded payloads and the state at the end. -/
def feedAll (s : State) : List Byte → List (List Byte) × State
  | []     => ([], s)
  | b :: w =>
    match s.decodeByte b with
    | (.overflow, s') => ([], s')
    | (_, s')         =>
      if s'.decHasFrame then (s'.dbufLive :: (feedAll s'.decoderReset w).1, (feedAll s'.decoderReset w).2)
      else feedAll s' w

/-- `decode_all(w)` (R53). -/
def pseudoDecodeAll (w : List Byte) (s : State) : List (List Byte) := (feedAll s.decoderReset w).1

end Sys2Proof.Machine
end

