-- ==== Sys2Proof/Safety.lean ====
section
/-! DEFINITION. What the claims call a sound state, the decoder's invariants (R74), and what an observer sees (R10). -/

namespace Sys2Proof.Machine

/-- Every index is within its capacity (R38). -/
abbrev State.InBounds (s : State) : Prop :=
  s.encWidx ≤ s.cfg.encCap ∧ s.decIdx ≤ s.cfg.decCap ∧ s.q.length ≤ s.cfg.qCap

/-- Every buffer is in canonical form, and no cell lies outside its buffer's capacity (R27, R31). `OUT` is the
host's and its capacity is an operand of each command. -/
abbrev State.BuffersOk (s : State) : Prop :=
  s.obuf.wf ∧ s.dbuf.wf ∧ s.scratch.wf ∧ s.out.wf ∧
    s.obuf.within s.cfg.encCap ∧ s.dbuf.within s.cfg.decCap ∧ s.scratch.within s.cfg.scratchSize

/-- Every byte below a live index has been written, so that no operation reads a byte nobody wrote (R26, R31). -/
abbrev State.LiveWritten (s : State) : Prop := s.obuf.filled s.encWidx ∧ s.dbuf.filled s.decIdx

/-- A state of an instance of this hardware whose registers and buffers make sense. Every instruction keeps it, the
micro-operations too. -/
abbrev State.Sound (s : State) : Prop := s.cfg.Valid ∧ s.InBounds ∧ s.BuffersOk ∧ s.LiveWritten

/-- The decoder's invariants (R74), clause by clause. -/
structure State.DecoderInv (s : State) : Prop where
  /-- (a) -/
  idxBounded : s.decIdx ≤ s.cfg.decCap
  /-- (b) -/
  frameReady : s.decHasFrame = true → s.decState = .idle ∧ 1 ≤ s.decIdx
  /-- (c) -/
  idleEmpty : s.decState = .idle → s.decHasFrame = false → s.decIdx = 0
  /-- (d) -/
  openEmpty : s.decState = .frameOpen → s.decIdx = 0
  /-- (e) -/
  decodingNonempty : s.decState = .decoding → 1 ≤ s.decIdx
  /-- (f) -/
  busyNotReady : s.decState ≠ .idle → s.decHasFrame = false

/-- Between steps a command runs exactly while a `recv` request is unanswered, and then the queue is empty and no
frame is pending: the only place where the Receiver waits (R88, R92). -/
abbrev State.WaitInv (s : State) : Prop :=
  (s.rx.isSome = true ↔ s.recvPending = true) ∧ (s.recvPending = true → s.q = [] ∧ s.decHasFrame = false)

/-- Only what a host can present stands at the port: no micro-operation (R50). -/
abbrev State.HostOnly (s : State) : Prop := ∀ x ∈ s.hostIn, x.hostIssuable = true

/-- The invariant of a machine driven by its host: every step keeps it. -/
structure State.Inv (s : State) : Prop where
  sound    : s.Sound
  decoder  : s.DecoderInv
  waits    : s.WaitInv
  hostOnly : s.HostOnly

/-- Two states that differ at most in bytes the spec leaves unspecified and unobservable: `OBUF` at or beyond
`enc.widx`, `DBUF` at or beyond `dec.idx`, `SCRATCH`, and the free values (R10, R26, U1, U2). -/
structure State.SameButUnspecified (s t : State) : Prop where
  others : t = { s with obuf := t.obuf, dbuf := t.dbuf, scratch := t.scratch, freeGen := t.freeGen }
  obufLive : ∀ i < s.encWidx, Memory.read s.obuf i = Memory.read t.obuf i ∧ (Memory.read s.obuf i).isSome = true
  dbufLive : ∀ i < s.decIdx, Memory.read s.dbuf i = Memory.read t.dbuf i ∧ (Memory.read s.dbuf i).isSome = true

/-- Two outcomes that no observer can tell apart. -/
def sameOutcome : Host.Outcome State Fault Refusal → Host.Outcome State Fault Refusal → Prop
  | .next s, .next t       => s.SameButUnspecified t
  | .refused r, .refused q => r = q
  | .fault r, .fault q     => r = q
  | _, _                   => False

/-- What a sender attached to the Encoder must hand to the transport after the last response: exactly `OBUF[0 .. L)`
after the `Ok(L)` of an `ENCODE`, nothing at all after its `Err(Overflow)` (R60); and nothing after the response of any
other command, `RX_RECEIVE_FRAME`'s `Ok(L)` among them, which says nothing about `OBUF`. -/
def State.toSend (s : State) : List Byte :=
  match s.resp with
  | some { status := .ok, value := .frameLength l } => s.bytesBelow .obuf l
  | _ => []

end Sys2Proof.Machine
end

