-- ==== Sys2Proof/Certificates/Slice0/Obligations.lean ====
section
/-! DEFINITION. The statements for the provers, from the numbered rules of the spec. Every statement is about every
configuration, since a state carries its own; a premise `Config.Valid` is R7. -/

namespace Sys2Proof.Claims

open Sys2Proof Sys2Proof.Machine

/-- The number of payload bytes that are reserved: the `k` of R55. -/
def reservedCount (v : Variant) (p : List Byte) : Nat := p.countP fun b => reserved v b

/-- The raw payload byte a raw-byte row stands for (R41, R42). -/
def rawByteOf : Instr → Option Byte
  | .rawC0      => some 0xC0#8
  | .rawDB      => some 0xDB#8
  | .raw11      => some 0x11#8
  | .raw13      => some 0x13#8
  | .rawOther b => some b
  | _           => none

/-- The wire byte a wire-byte row stands for (R40, R45). -/
def wireByteOf : Instr → Option Byte
  | .wireEnd    => some 0xC0#8
  | .wireEsc    => some 0xDB#8
  | .wireData b => some b
  | _           => none

/-- The second byte of the pair a wire-pair row stands for; the first is 0xDB (R40, R46). -/
def secondByteOf : Instr → Option Byte
  | .seqEscEnd => some 0xDC#8
  | .seqEscEsc => some 0xDD#8
  | .seqEsc11  => some 0xDE#8
  | .seqEsc13  => some 0xDF#8
  | .seqBad s  => some s
  | _          => none

/-- The status a status row stands for (R52). -/
def statusOf : Instr → Option Status
  | .stOk             => some .ok
  | .stOverflow       => some .overflow
  | .stBadEscape      => some .badEscape
  | .stBufferTooSmall => some .bufferTooSmall
  | .stTransportError => some .transportError
  | .stCancelled      => some .cancelled
  | _                 => none

/-- The decoder state a state row stands for (R18). -/
def decStateOf : Instr → Option DecState
  | .stateIdle      => some .idle
  | .stateFrameOpen => some .frameOpen
  | .stateDecoding  => some .decoding
  | .stateEscaping  => some .escaping
  | _               => none

/-- `DEC_BYTE w[0]`, `DEC_BYTE w[1]`, ... one after another, with the statuses answered; none as soon as one is not
accepted. -/
def decBytes : List Byte → State → Option (List Status × State)
  | [], s     => some ([], s)
  | b :: w, s =>
    match exec (.decByte b) s with
    | .next t =>
      match t.resp, decBytes w t with
      | some r, some (sts, u) => some (r.status :: sts, u)
      | _, _                  => none
    | .fault _   => none
    | .refused _ => none

/-- One queue operation of a sequence (R82). -/
inductive QueueOp where
  | push (w : List Byte)
  | pop
deriving DecidableEq, Repr

/-- A sequence of queue operations, none of which finds the queue too full to take what is pushed: the bytes pushed,
the bytes popped, and the state at the end; none where a push would overwrite or a pop has no step. -/
def queueRun : List QueueOp → State → Option (List Byte × List Byte × State)
  | [], s             => some ([], [], s)
  | .push w :: ops, s =>
    if s.q.length + w.length ≤ s.cfg.qCap then
      match exec (.qPush w) s with
      | .next t =>
        match queueRun ops t with
        | some (pushed, popped, u) => some (w ++ pushed, popped, u)
        | none                     => none
      | _ => none
    else none
  | .pop :: ops, s    =>
    match exec .qPop s with
    | .next t =>
      match t.returned, queueRun ops t with
      | some (.byte b), some (pushed, popped, u) => some (pushed, b :: popped, u)
      | _, _                                     => none
    | _ => none

/-- A transport answer that keeps the obligation of R83. -/
def answerOk (s : State) : RecvAnswer → Prop
  | .data w  => 1 ≤ w.length ∧ w.length ≤ s.cfg.scratchSize
  | .noData  => True
  | .failure => True

/-- The operand ports that the command `i` names (R51), the others put to 0. -/
def namedOperands (i : Instr) (ops : Operands) : Operands :=
  match i with
  | .encode _         => { Operands.zero with payload := ops.payload }
  | .decByte _        => { Operands.zero with byte := ops.byte }
  | .rxReceiveFrame _ => { Operands.zero with capacity := ops.capacity }
  | _                 => Operands.zero

/-- The wire bytes an answer brings. -/
def answerBytes : RecvAnswer → List Byte
  | .data w  => w
  | .noData  => []
  | .failure => []

/-- The wire bytes that lie ahead of the Decoder: the queue, then what the transport will bring (R30, R33). -/
def stream (s : State) : List Byte := s.q ++ s.recvIn.flatMap answerBytes

end Sys2Proof.Claims

open Sys2Proof Sys2Proof.Machine Sys2Proof.Claims

/-! ### Reset, the step, the port -/

/-- R26, of every instance: the registers and the queue at their reset values, no buffer byte written. -/
def Obligations.ResetValues : Prop :=
  State.reset = State.resetOf Config.atReset ∧
  ∀ c : Config, (State.resetOf c).encWidx = 0 ∧ (State.resetOf c).decIdx = 0 ∧
    (State.resetOf c).decHasFrame = false ∧ (State.resetOf c).decState = .idle ∧ (State.resetOf c).q = [] ∧
    ∀ i buf, Memory.read ((State.resetOf c).buffer buf) i = none

/-- R109: with `rst` asserted, whatever runs or stands at the ports, the next state has every register and the queue
at its reset value and the buffers' contents unspecified; no response is given (the trace is as it was), `OUT` is as it
was, and the inputs and parameters are as they were. That the inputs stay, the assertion is used up, `resp` and
`returned` are cleared and an outstanding `recv` request is withdrawn is the model's choice (log entries 6, 7, 18). -/
def Obligations.BlockResetPutsResetValues : Prop :=
  ∀ s : State, s.rst = true →
    step s = .next
      { State.resetOf s.cfg with
          out := s.out, trace := s.trace, hostIn := s.hostIn, recvIn := s.recvIn
          cancelReq := s.cancelReq, cancelIn := s.cancelIn, freeGen := s.freeGen + 1 }

/-- A step runs the decoded instruction: with no reset and no command running, the transaction at the port is taken and
its instruction is run by exec; what decodes to no instruction is refused; with nothing presented nothing happens. -/
def Obligations.StepRunsDecodedInstruction : Prop :=
  ∀ s : State, s.rst = false → s.rx = none →
    (s.hostIn = [] → step s = .next s) ∧
    ∀ x r, s.hostIn = x :: r →
      (∀ i, decode s.cfg x = .instr i → step s = exec i { s with hostIn := r }) ∧
      (∀ why, decode s.cfg x = .reject why → step s = .refused (.undecodable why))

/-- R92: while `RX_RECEIVE_FRAME` runs, a step goes on with it and takes no command from the port. -/
def Obligations.RunningReceiveBlocksOtherCommands : Prop :=
  ∀ (s : State) (c : Nat), s.rst = false → s.rx = some c →
    step s = exec (.rxReceiveFrame c) s ∧ ∀ t, step s = .next t → t.hostIn = s.hostIn

/-- The instruction the host places for a table word is the one its decoder reads, and the next step runs it. -/
def Obligations.PlacedTableWordIsRunNext : Prop :=
  ∀ (s : State) (nbits w : Nat) (i : Instr), s.cfg = Config.atReset → decodeTableWord nbits w = some i →
    step (s.withFetchWord nbits w) = exec i { s with rst := false, rx := none }

/-! ### Encodings -/

/-- Decoding the encoding of a well-formed instruction gives it back, for all forty rows and every operand. -/
def Obligations.DecodeUndoesEncode : Prop :=
  ∀ (c : Config) (i : Instr), WellFormed c i → decode c (encode i) = .instr i

/-- Whatever decodes is well-formed, and is the encoding of what it decodes to, but for the operand ports the instruction
does not name (log entry 17); what is no row's encoding is rejected: a code too wide for its format, a pair that does
not begin with `ESC` (R46), a length or a capacity that does not fit its `LEN_W`-bit port (R51, U8). -/
def Obligations.DecodedIsWellFormed : Prop :=
  ∀ c : Config,
    (∀ x i, decode c x = .instr i → WellFormed c i) ∧
    (∀ f code ops i, decode c (.coded f code ops) = .instr i → encode i = .coded f code (namedOperands i ops)) ∧
    (∀ op i, decode c (.call op) = .instr i → encode i = .call op) ∧
    (∀ f code ops, 2 ^ fmtWidth f ≤ code.toNat → decode c (.coded f code ops) = .reject (.codeTooWide f)) ∧
    (∀ (a s : Byte) (ops : Operands), a ≠ 0xDB#8 → decode c (.coded .wirePair (a ++ s) ops) = .reject .notAnEscapePair) ∧
    (∀ ops, 2 ^ c.lenW ≤ ops.payload.length → decode c (.coded .cmd4 0x1#16 ops) = .reject .payloadTooLong) ∧
    (∀ ops, 2 ^ c.lenW ≤ ops.capacity → decode c (.coded .cmd4 0x6#16 ops) = .reject .capacityTooLarge)

/-- The words of a few rows, written out from the tables of R18, R40, R41, R48, R49 and R52. -/
def Obligations.WordsOfTheTableDecode : Prop :=
  decode Config.atReset (.coded .wireByte 0b11000000#16 Operands.zero) = .instr .wireEnd ∧
  decode Config.atReset (.coded .wireByte 0b01000001#16 Operands.zero) = .instr (.wireData 0x41#8) ∧
  decode Config.atReset (.coded .wirePair 0b1101101111011101#16 Operands.zero) = .instr .seqEscEsc ∧
  decode Config.atReset (.coded .wirePair 0b1101101111000000#16 Operands.zero) = .instr (.seqBad 0xC0#8) ∧
  decode Config.atReset (.coded .rawByte 0b00010011#16 Operands.zero) = .instr .raw13 ∧
  decode Config.atReset (.coded .cmd4 0b0001#16 { Operands.zero with payload := [0xC0#8] }) = .instr (.encode [0xC0#8]) ∧
  decode Config.atReset (.coded .cmd4 0b0110#16 { Operands.zero with capacity := 5 }) = .instr (.rxReceiveFrame 5) ∧
  decode Config.atReset (.coded .cmd4 0b1010#16 Operands.zero) = .instr (.cmdReserved8F 0b010#3) ∧
  decode Config.atReset (.coded .status3 0b100#16 Operands.zero) = .instr .stTransportError ∧
  decode Config.atReset (.coded .state2 0b11#16 Operands.zero) = .instr .stateEscaping

/-- R49: the reserved command codes 0x0 and 0x7 to 0xF are not accepted, whatever stands at the operand ports: no step,
no response. -/
def Obligations.ReservedCommandCodesHaveNoStep : Prop :=
  ∀ (s : State) (code : BitVec 4) (ops : Operands), code = 0x0#4 ∨ 0x7#4 ≤ code →
    ∃ i, decode s.cfg (.coded .cmd4 (code.setWidth 16) ops) = .instr i ∧ exec i s = .refused (.reservedCommand code)

/-- R46: while a frame is open the wire is a prefix code: the symbols of a frame are `END`, one symbol for each payload
byte in order, and `END`. -/
def Obligations.FrameIsReadSymbolBySymbol : Prop :=
  ∀ (v : Variant) (p : List Byte),
    wireSymbols v (frame v p) = [.wireEnd] ++ p.map (symbolOf v) ++ [.wireEnd]

/-- R42 and R43: `esc` and `unesc` byte for byte, and that `unesc` is the inverse of the table. -/
def Obligations.EscapeTableAndItsInverse : Prop :=
  ∀ (v : Variant) (b : Byte),
    (esc v b =
      if b = 0xC0#8 then [0xDB#8, 0xDC#8]
      else if b = 0xDB#8 then [0xDB#8, 0xDD#8]
      else if b = 0x11#8 ∧ v = .threeWire then [0xDB#8, 0xDE#8]
      else if b = 0x13#8 ∧ v = .threeWire then [0xDB#8, 0xDF#8]
      else [b]) ∧
    (∀ r, unesc v b = some r ↔ esc v r = [0xDB#8, b]) ∧
    ((esc v b).length = 2 ↔ reserved v b = true)

/-- R44: no two raw bytes have the same escaped pair, no second byte is a marker, `unesc` gives the raw byte back, and so
the escaped payload holds no `END` (the only ones of a frame are its first and its last byte) and, in `ThreeWire`,
neither 0x11 nor 0x13. (The reserved byte 0xDB does stand in it, at the head of every escaped pair.) -/
def Obligations.EscapesAreInjectiveAndHideTheDelimiter : Prop :=
  (∀ (v : Variant) (a b s : Byte), esc v a = [0xDB#8, s] → esc v b = [0xDB#8, s] →
    a = b ∧ s ≠ 0xC0#8 ∧ s ≠ 0xDB#8 ∧ unesc v s = some a) ∧
  ∀ (v : Variant) (p : List Byte),
    0xC0#8 ∉ escapeAll v p ∧ (v = .threeWire → 0x11#8 ∉ escapeAll v p ∧ 0x13#8 ∉ escapeAll v p)

/-! ### The Encoder -/

/-- R55: the frame's length is N + k + 2, between N + 2 and 2N + 2, the lower bound met when no payload byte is
reserved, the upper when all are. -/
def Obligations.FrameLengthLaw : Prop :=
  ∀ (v : Variant) (p : List Byte),
    (frame v p).length = p.length + reservedCount v p + 2 ∧
    p.length + 2 ≤ (frame v p).length ∧ (frame v p).length ≤ 2 * p.length + 2 ∧
    ((frame v p).length = p.length + 2 ↔ ∀ b ∈ p, reserved v b = false) ∧
    ((frame v p).length = 2 * p.length + 2 ↔ ∀ b ∈ p, reserved v b = true)

/-- R54, a frame that fits: `Ok(L)` with L = N + k + 2, `enc.widx = L`, `OBUF[0 .. L)` the frame; nothing else changes,
and `enc.widx` and `OBUF` are all that is written. -/
def Obligations.EncodeWritesTheFrame : Prop :=
  ∀ (s : State) (p : List Byte), p.length + reservedCount s.cfg.variant p + 2 ≤ s.cfg.encCap →
    ∃ m : Memory,
      exec (.encode p) s = .next
        (({ s with encWidx := p.length + reservedCount s.cfg.variant p + 2, obuf := m }).respond .ok
          (.frameLength (p.length + reservedCount s.cfg.variant p + 2))) ∧
      (∀ i, i < p.length + reservedCount s.cfg.variant p + 2 →
        Memory.read m i = ([0xC0#8] ++ p.flatMap (esc s.cfg.variant) ++ [0xC0#8])[i]?)

/-- R56 and R94: `ENCODE` answers for every payload; it is `Err(Overflow)` exactly when the whole frame does not fit,
`Ok(L)` when it does, to the last byte of `OBUF`; after the overflow `enc.widx = 0`, `OBUF` holds nothing that may be read, nothing may be sent, and all else is as it was. -/
def Obligations.EncodeOverflowsExactlyWhenTooLong : Prop :=
  ∀ (s : State) (p : List Byte), ∃ t, exec (.encode p) s = .next t ∧
    (t.resp = some { status := .overflow, value := .none } ↔
      s.cfg.encCap < p.length + reservedCount s.cfg.variant p + 2) ∧
    (p.length + reservedCount s.cfg.variant p + 2 ≤ s.cfg.encCap →
      t.resp = some { status := .ok, value := .frameLength (p.length + reservedCount s.cfg.variant p + 2) }) ∧
    (s.cfg.encCap < p.length + reservedCount s.cfg.variant p + 2 →
      t = ({ s with encWidx := 0, obuf := Memory.unspecified }).respond .overflow .none ∧ t.toSend = [])

/-- R57, the equivalence: writing the frame incrementally, with a test before each byte that it and the trailing `END`
fit, has the outcome of `ENCODE` (R54), which tests the whole length first. -/
def Obligations.IncrementalEncoderIsEncode : Prop :=
  ∀ (s : State) (p : List Byte), encodeIncrementally p s = exec (.encode p) s

/-- R59: the same payload gives the same response and the same frame on two states of one instance, whatever commands
came before. -/
def Obligations.EncodeDependsOnPayloadOnly : Prop :=
  ∀ (s t : State) (p : List Byte), s.cfg = t.cfg → ∃ s' t', exec (.encode p) s = .next s' ∧ exec (.encode p) t = .next t' ∧
    s'.resp = t'.resp ∧ s'.encWidx = t'.encWidx ∧
    ∀ i < s'.encWidx, Memory.read s'.obuf i = Memory.read t'.obuf i ∧ (Memory.read s'.obuf i).isSome = true

/-- R60: after `Ok(L)` an attached sender must send exactly the frame, after `Err(Overflow)` nothing. -/
def Obligations.SenderSendsTheFrameOrNothing : Prop :=
  ∀ (s t : State) (p : List Byte), exec (.encode p) s = .next t →
    t.toSend = if s.cfg.encCap < (frame s.cfg.variant p).length then [] else frame s.cfg.variant p

/-- The raw-byte rows, every form: the bytes of `esc(b)` are written at `enc.widx`, which advances past them, when they
and a trailing `END` fit; otherwise the Encoder's `Overflow`. Nothing else changes. -/
def Obligations.RawByteIsEscapedIntoObuf : Prop :=
  ∀ (s : State) (i : Instr) (b : Byte), rawByteOf i = some b →
    (s.encWidx + (esc s.cfg.variant b).length + 1 ≤ s.cfg.encCap →
      exec i s = .next
        { s with obuf := Memory.writeSeq s.obuf s.encWidx (esc s.cfg.variant b)
                 encWidx := s.encWidx + (esc s.cfg.variant b).length }) ∧
    (s.cfg.encCap < s.encWidx + (esc s.cfg.variant b).length + 1 →
      exec i s = .next (({ s with encWidx := 0, obuf := Memory.unspecified }).respond .overflow .none))

/-! ### The Decoder -/

/-- R64: in `Idle`, `END` opens a frame and every other byte changes nothing; always `Ok`. -/
def Obligations.DecByteInIdle : Prop :=
  ∀ (s : State) (b : Byte), s.decHasFrame = false → s.decState = .idle →
    exec (.decByte b) s =
      .next (({ s with decState := if b = 0xC0#8 then .frameOpen else .idle }).respond .ok .none)

/-- R65: in `FrameOpen`. -/
def Obligations.DecByteInFrameOpen : Prop :=
  ∀ (s : State) (b : Byte), s.decHasFrame = false → s.decState = .frameOpen →
    exec (.decByte b) s = .next
      (if b = 0xC0#8 then s.respond .ok .none
       else if b = 0xDB#8 then ({ s with decState := .escaping }).respond .ok .none
       else if s.decIdx = s.cfg.decCap then s.respond .overflow .none
       else
        ({ s with dbuf := Memory.write s.dbuf s.decIdx b, decIdx := s.decIdx + 1, decState := .decoding }).respond
          .ok .none)

/-- R66: in `Decoding`. -/
def Obligations.DecByteInDecoding : Prop :=
  ∀ (s : State) (b : Byte), s.decHasFrame = false → s.decState = .decoding →
    exec (.decByte b) s = .next
      (if b = 0xC0#8 then ({ s with decHasFrame := true, decState := .idle }).respond .ok .none
       else if b = 0xDB#8 then ({ s with decState := .escaping }).respond .ok .none
       else if s.decIdx = s.cfg.decCap then s.respond .overflow .none
       else ({ s with dbuf := Memory.write s.dbuf s.decIdx b, decIdx := s.decIdx + 1 }).respond .ok .none)

/-- R67, R69: in `Escaping`; the test for an illegal second byte comes before the capacity test. -/
def Obligations.DecByteInEscaping : Prop :=
  ∀ (s : State) (b : Byte), s.decHasFrame = false → s.decState = .escaping →
    exec (.decByte b) s = .next
      (match unesc s.cfg.variant b with
       | none   => ({ s with decIdx := 0, decState := .idle }).respond .badEscape .none
       | some v =>
         if s.decIdx = s.cfg.decCap then s.respond .overflow .none
         else
          ({ s with dbuf := Memory.write s.dbuf s.decIdx v, decIdx := s.decIdx + 1, decState := .decoding }).respond
            .ok .none)

/-- R63: while a completed frame is pending `DEC_BYTE` has no step; after `DEC_RESET` or block reset it is accepted
again. That the same holds of every wire symbol, being `DEC_BYTE` of its bytes, is the model's choice (log entry 11). -/
def Obligations.DecByteIsHeldWhileFramePending : Prop :=
  ∀ (s : State) (i : Instr) (b : Byte),
    i = .decByte b ∨ (wireByteOf i).isSome = true ∨ (secondByteOf i).isSome = true →
    (s.decHasFrame = true → exec i s = .refused .heldWhileFramePending) ∧
    (∃ t u, exec .decReset s = .next t ∧ exec i t = .next u) ∧
    (s.rst = true → ∃ t u, step s = .next t ∧ exec i t = .next u)

/-- The wire bytes `END`, `ESC` and data are `DEC_BYTE` of the byte, in every state that accepts it. -/
def Obligations.WireByteIsDecByte : Prop :=
  ∀ (s : State) (i : Instr) (b : Byte), wireByteOf i = some b → s.decHasFrame = false →
    ∃ t, exec i s = .next t ∧ exec (.decByte b) s = .next t

/-- The wire pairs are two `DEC_BYTE` transactions, `ESC` first, in every state that accepts a byte. -/
def Obligations.WirePairIsTwoDecBytes : Prop :=
  ∀ (s : State) (i : Instr) (c : Byte), secondByteOf i = some c → s.decHasFrame = false →
    ∃ t u, exec (.decByte 0xDB#8) s = .next t ∧ exec (.decByte c) t = .next u ∧ exec i s = .next u

/-- R46, R47: a pair while a frame is open. One of the table appends the raw byte it stands for, when there is room;
any other is `BadEscape` and the partial payload is discarded. Two responses are given, the first for `ESC`, `Ok`. -/
def Obligations.WirePairInOpenFrame : Prop :=
  ∀ (s t : State) (i : Instr) (c : Byte), secondByteOf i = some c → s.decHasFrame = false →
    s.decState = .frameOpen ∨ s.decState = .decoding → t = s.respond .ok .none →
    exec i s = .next
      (match unesc s.cfg.variant c with
       | none   => ({ t with decIdx := 0, decState := .idle }).respond .badEscape .none
       | some v =>
         if s.decIdx = s.cfg.decCap then ({ t with decState := .escaping }).respond .overflow .none
         else
          ({ t with dbuf := Memory.write s.dbuf s.decIdx v, decIdx := s.decIdx + 1, decState := .decoding }).respond
            .ok .none)

/-- R71, R72: the two reads answer in every state, change nothing but the response and its record, give the flag, the
length and every byte written below it, and answer the same when repeated. -/
def Obligations.DecoderReadsAreIdempotent : Prop :=
  ∀ s : State,
    (exec .decHasFrame s = .next (s.respond .ok (.bit s.decHasFrame))) ∧
    ∃ w : List Byte, w.length = s.decIdx ∧
      (∀ i v, i < s.decIdx → Memory.read s.dbuf i = some v → w[i]? = some v) ∧
      exec .decTakeFrame s = .next (s.respond .ok (.bytes s.decIdx w)) ∧
      (∀ t, exec .decTakeFrame s = .next t →
        exec .decTakeFrame t = .next (t.respond .ok (.bytes s.decIdx w)) ∧
        exec .decHasFrame t = .next (t.respond .ok (.bit s.decHasFrame)))

/-- R73: `DEC_RESET` clears the three decoder registers and nothing else, in every state; twice is as once. -/
def Obligations.DecResetIsIdempotent : Prop :=
  ∀ s : State,
    exec .decReset s = .next (({ s with decIdx := 0, decHasFrame := false, decState := .idle }).respond .ok .none) ∧
    ∀ t, exec .decReset s = .next t → exec .decReset t = .next (t.respond .ok .none)

/-- R74: the decoder's invariants hold at reset and after every command and every wire symbol, and so every frame the
Receiver delivers has a payload of at least one byte. -/
def Obligations.DecoderInvariantIsKept : Prop :=
  (∀ c : Config, (State.resetOf c).DecoderInv) ∧
  (∀ (s t : State) (i : Instr), s.DecoderInv → (encode i).hostIssuable = true → exec i s = .next t → t.DecoderInv) ∧
  (∀ (s t : State) (c l : Nat), s.DecoderInv → exec (.rxReceiveFrame c) s = .next t → t.rx = none →
    t.resp = some { status := .ok, value := .payloadLength l } → 1 ≤ l)

/-- R75: the bytes of a payload's frame, fed in order to a Decoder in `Idle` or `FrameOpen` with no frame pending, are
all answered `Ok` and end with the frame ready and `DBUF[0 .. |p|) = p`. -/
def Obligations.RoundTripThroughTheDecoder : Prop :=
  ∀ (s : State) (p : List Byte), s.DecoderInv → s.decHasFrame = false → s.decState = .idle ∨ s.decState = .frameOpen →
    1 ≤ p.length → p.length ≤ s.cfg.decCap →
    ∃ sts t, decBytes (frame s.cfg.variant p) s = some (sts, t) ∧ (∀ st ∈ sts, st = .ok) ∧
      t.decHasFrame = true ∧ t.decIdx = p.length ∧ t.decState = .idle ∧
      ∀ i < p.length, Memory.read t.dbuf i = p[i]?

/-- R75, the payload that is too long: everything up to the frame's byte that would store `p[DEC_CAP]` is `Ok`, and
that byte is answered `Overflow`. -/
def Obligations.OversizedPayloadOverflowsTheDecoder : Prop :=
  ∀ (s : State) (p q : List Byte) (b : Byte), s.DecoderInv → s.decHasFrame = false →
    s.decState = .idle ∨ s.decState = .frameOpen → p.length = s.cfg.decCap → 1 ≤ p.length →
    ∃ sts t, decBytes ([0xC0#8] ++ escapeAll s.cfg.variant p ++ esc s.cfg.variant b) s = some (sts ++ [.overflow], t) ∧
      (∀ st ∈ sts, st = .ok) ∧ t.decIdx = s.cfg.decCap ∧ t.decHasFrame = false ∧
      frame s.cfg.variant (p ++ b :: q) =
        [0xC0#8] ++ escapeAll s.cfg.variant p ++ esc s.cfg.variant b ++ escapeAll s.cfg.variant q ++ [0xC0#8]

/-- The source's round trip property in its pseudo-operations (R53, R75): `decode(encode(p)) = p` for every payload of
1 to `DEC_CAP` bytes whose frame fits `OBUF`, whatever state the Decoder that decodes is in. -/
def Obligations.DecodeOfEncodeIsThePayload : Prop :=
  ∀ (s t : State) (p : List Byte), s.cfg = t.cfg → 1 ≤ p.length → p.length ≤ t.cfg.decCap →
    (frame s.cfg.variant p).length ≤ s.cfg.encCap →
    ∃ f, pseudoEncode p s = some f ∧ pseudoDecode f t = some p

/-- R76: noise without an `END`, fed to a Decoder in its reset state, leaves it in its reset state, and the frame after
it is decoded. -/
def Obligations.NoiseBeforeTheFrameIsDiscarded : Prop :=
  ∀ (s : State) (n p : List Byte), s.decState = .idle → s.decHasFrame = false → s.decIdx = 0 → 0xC0#8 ∉ n →
    1 ≤ p.length → p.length ≤ s.cfg.decCap →
    (∃ sts t, decBytes n s = some (sts, t) ∧ (∀ st ∈ sts, st = .ok) ∧
      t.decState = .idle ∧ t.decHasFrame = false ∧ t.decIdx = 0 ∧ t.dbuf = s.dbuf) ∧
    ∃ sts t, decBytes (n ++ frame s.cfg.variant p) s = some (sts, t) ∧ (∀ st ∈ sts, st = .ok) ∧
      t.decHasFrame = true ∧ t.decIdx = p.length ∧ ∀ i < p.length, Memory.read t.dbuf i = p[i]?

/-- R77: frames that share a delimiter. After the first frame of `END p END w END` is delivered and the Decoder reset,
`w`, which holds no `END`, is ignored and the last `END` only opens a frame; two frames with both delimiters each are
both decoded, whatever bytes the payloads hold. -/
def Obligations.FramesMustNotShareADelimiter : Prop :=
  ∀ (s : State) (p w : List Byte), 1 ≤ p.length → p.length ≤ s.cfg.decCap →
    (0xC0#8 ∉ w →
      pseudoDecodeAll (frame s.cfg.variant p ++ w ++ [0xC0#8]) s = [p] ∧
      (feedAll s.decoderReset (frame s.cfg.variant p ++ w ++ [0xC0#8])).2.decState = .frameOpen) ∧
    (1 ≤ w.length → w.length ≤ s.cfg.decCap →
      pseudoDecodeAll (frame s.cfg.variant p ++ frame s.cfg.variant w) s = [p, w])

/-- R70: the empty frame reports nothing, however often `END` is repeated: the Decoder ends in `FrameOpen` with no
frame and nothing accumulated. -/
def Obligations.EmptyFrameReportsNothing : Prop :=
  ∀ (s : State) (n : Nat), s.decState = .idle → s.decHasFrame = false → s.decIdx = 0 →
    ∃ sts t, decBytes (List.replicate (n + 1) 0xC0#8) s = some (sts, t) ∧ (∀ st ∈ sts, st = .ok) ∧
      t.decState = .frameOpen ∧ t.decHasFrame = false ∧ t.decIdx = 0

/-! ### The queue -/

/-- R78: `Q_PUSH` leaves the last min(Q_CAP, |q| + |w|) bytes of `q ++ w`, in every state within its capacity. -/
def Obligations.PushKeepsTheLastBytes : Prop :=
  ∀ (s : State) (w : List Byte), 1 ≤ s.cfg.qCap → s.q.length ≤ s.cfg.qCap →
    exec (.qPush w) s = .next { s with q := (s.q ++ w).drop (s.q.length + w.length - s.cfg.qCap) }

/-- R79, R80, R81: `Q_POP` removes and returns the oldest byte, and has no step on an empty queue; `Q_LEN` returns the
length and changes nothing else; `Q_RESET` empties the queue. -/
def Obligations.PopLenAndResetOfTheQueue : Prop :=
  ∀ s : State,
    (∀ b r, s.q = b :: r → exec .qPop s = .next { s with q := r, returned := some (.byte b) }) ∧
    (s.q = [] → exec .qPop s = .refused .popOfEmptyQueue) ∧
    exec .qLen s = .next { s with returned := some (.count s.q.length) } ∧
    exec .qReset s = .next { s with q := [] }

/-- R82: where no push finds the queue full, what is popped is exactly what was queued and pushed, in order. -/
def Obligations.QueueIsFirstInFirstOut : Prop :=
  ∀ (s u : State) (ops : List QueueOp) (pushed popped : List Byte),
    queueRun ops s = some (pushed, popped, u) → popped ++ u.q = s.q ++ pushed

/-! ### The Receiver and its ports -/

/-- R83: `recv` makes one request of `S` bytes; `Data(w)` with 1 ≤ |w| ≤ S lands in `SCRATCH[0 .. |w|)`; `NoData` and
`Failure` are answers too; without an answer the request stands; `Data` outside the obligation has no step. -/
def Obligations.RecvRequestAndItsAnswer : Prop :=
  ∀ s : State, s.recvPending = false →
    (s.recvIn = [] →
      exec .recv s =
        .next { s with recvPending := true, trace := s.trace ++ [Event.recvRequest s.cfg.scratchSize] }) ∧
    (∀ a r, s.recvIn = a :: r → answerOk s a → ∃ m : Memory,
      exec .recv s =
        .next
          { s with recvIn := r, scratch := m, returned := some (.answer a)
                   trace := s.trace ++ [Event.recvRequest s.cfg.scratchSize] } ∧
      (∀ i < (answerBytes a).length, Memory.read m i = (answerBytes a)[i]?)) ∧
    (∀ w r, s.recvIn = .data w :: r → ¬(1 ≤ w.length ∧ w.length ≤ s.cfg.scratchSize) →
      exec .recv s = .refused .recvAnswerOutOfRange)

/-- R83, U5, the request that is already outstanding is not made again: only its answer is taken, and `Data` outside the
obligation has no step here either. -/
def Obligations.OutstandingRecvIsNotRepeated : Prop :=
  ∀ s : State, s.recvPending = true →
    (s.recvIn = [] → exec .recv s = .next s) ∧
    (∀ a r, s.recvIn = a :: r → answerOk s a → ∃ m : Memory,
      exec .recv s = .next { s with recvIn := r, recvPending := false, scratch := m, returned := some (.answer a) } ∧
      (∀ i < (answerBytes a).length, Memory.read m i = (answerBytes a)[i]?)) ∧
    (∀ w r, s.recvIn = .data w :: r → ¬(1 ≤ w.length ∧ w.length ≤ s.cfg.scratchSize) →
      exec .recv s = .refused .recvAnswerOutOfRange)

/-- R84, R100: a cancel sample reads the level of the cancel request, and is observed; `ev_bad_escape` is one event and
changes no state. -/
def Obligations.CancelSampleAndEvent : Prop :=
  ∀ s : State,
    (∀ b r, s.cancelIn = b :: r →
      exec .cancelSample s = .next
        { s with cancelReq := b, cancelIn := r, returned := some (.bit b), trace := s.trace ++ [Event.cancelSampled b] }) ∧
    (s.cancelIn = [] →
      exec .cancelSample s = .next
        { s with returned := some (.bit s.cancelReq), trace := s.trace ++ [Event.cancelSampled s.cancelReq] }) ∧
    exec .evBadEscape s = .next { s with trace := s.trace ++ [.badEscape] }

/-- R87, step A: a pending frame that fits the caller's buffer is delivered at once, whatever the cancel request and
the queue: the payload in `OUT[0 .. L)`, the rest of `OUT` as it was, the Decoder reset, `Ok(L)`. A frame that does not
fit is lost, `Err(BufferTooSmall)`, `OUT` as it was. -/
def Obligations.ReceiveDeliversThePendingFrame : Prop :=
  ∀ (s : State) (c : Nat), s.decHasFrame = true →
    (s.decIdx ≤ c → ∃ m : Memory,
      exec (.rxReceiveFrame c) s = .next
        (({ s with out := m, decIdx := 0, decHasFrame := false, decState := .idle }).respond .ok (.payloadLength s.decIdx)) ∧
      (∀ i v, i < s.decIdx → Memory.read s.dbuf i = some v → Memory.read m i = some v) ∧
      (∀ i, s.decIdx ≤ i → Memory.read m i = Memory.read s.out i)) ∧
    (c < s.decIdx →
      exec (.rxReceiveFrame c) s = .next
        (({ s with decIdx := 0, decHasFrame := false, decState := .idle }).respond .bufferTooSmall .none))

/-- R88, R98, R99, step B: with no frame pending and an empty queue the cancel request is sampled; if it is 1 the result
is `Err(Cancelled)` and no `recv` is made. Otherwise one `recv` is made, and `Failure` ends the command with
`Err(TransportError)`. Where the request is outstanding already (log entries 15 and 19) nothing is sampled and nothing
asked again, whatever the cancel request, and `Failure` ends the command in the same way. The Decoder, the queue and
`OUT` are as they were. -/
def Obligations.ReceiveCancelledOrFailed : Prop :=
  ∀ (s : State) (c : Nat), s.decHasFrame = false → s.q = [] →
    (s.recvPending = false → s.cancelLevel = true →
      exec (.rxReceiveFrame c) s = .next
        (({ s with cancelReq := true, cancelIn := s.cancelIn.tail
                   trace := s.trace ++ [Event.cancelSampled true] }).respond .cancelled .none)) ∧
    (∀ r, s.recvPending = false → s.cancelLevel = false → s.recvIn = .failure :: r →
      exec (.rxReceiveFrame c) s = .next
        (({ s with cancelReq := false, cancelIn := s.cancelIn.tail, recvIn := r
                   trace := s.trace ++ [Event.cancelSampled false, Event.recvRequest s.cfg.scratchSize] }).respond
            .transportError .none)) ∧
    (∀ r, s.recvPending = true → s.recvIn = .failure :: r →
      exec (.rxReceiveFrame c) s = .next
        (({ s with recvIn := r, recvPending := false }).respond .transportError .none))

/-- R88, R89, step B goes on: `NoData` is retried, and `Data(w)` puts exactly `w` in the queue, nothing overwritten;
the command goes on as it would from there. Without an answer the command waits. Where the request is outstanding
already (log entries 15 and 19) the same comes of its answer, with no cancel sample and no request of its own, whatever
the cancel request. `Data` outside the transport's obligation has no step, in both cases (R83, U5). -/
def Obligations.ReceiveRefillsTheQueue : Prop :=
  ∀ (s : State) (c : Nat), s.cfg.Valid → s.decHasFrame = false → s.q = [] →
    (s.recvPending = false → s.cancelLevel = false →
      (∀ r, s.recvIn = .noData :: r →
        exec (.rxReceiveFrame c) s =
          exec (.rxReceiveFrame c)
            { s with cancelReq := false, cancelIn := s.cancelIn.tail, recvIn := r
                     trace := s.trace ++ [Event.cancelSampled false, Event.recvRequest s.cfg.scratchSize] }) ∧
      (∀ w r, s.recvIn = .data w :: r → 1 ≤ w.length → w.length ≤ s.cfg.scratchSize → ∃ m : Memory,
        exec (.rxReceiveFrame c) s =
          exec (.rxReceiveFrame c)
            { s with cancelReq := false, cancelIn := s.cancelIn.tail, recvIn := r, scratch := m, q := w
                     trace := s.trace ++ [Event.cancelSampled false, Event.recvRequest s.cfg.scratchSize] }) ∧
      (s.recvIn = [] →
        exec (.rxReceiveFrame c) s = .next
          { s with cancelReq := false, cancelIn := s.cancelIn.tail, rx := some c, recvPending := true
                   trace := s.trace ++ [Event.cancelSampled false, Event.recvRequest s.cfg.scratchSize] })) ∧
    (s.recvPending = true →
      (∀ r, s.recvIn = .noData :: r →
        exec (.rxReceiveFrame c) s = exec (.rxReceiveFrame c) { s with recvIn := r, recvPending := false }) ∧
      (∀ w r, s.recvIn = .data w :: r → 1 ≤ w.length → w.length ≤ s.cfg.scratchSize → ∃ m : Memory,
        exec (.rxReceiveFrame c) s =
          exec (.rxReceiveFrame c) { s with recvIn := r, recvPending := false, scratch := m, q := w }) ∧
      (s.recvIn = [] → exec (.rxReceiveFrame c) s = .next { s with rx := some c })) ∧
    (∀ w r, s.recvPending = true ∨ s.cancelLevel = false → s.recvIn = .data w :: r →
      ¬(1 ≤ w.length ∧ w.length ≤ s.cfg.scratchSize) →
      exec (.rxReceiveFrame c) s = .refused .recvAnswerOutOfRange)

/-- R90, step C: the oldest byte is popped and given to `DEC_BYTE`. `Ok` goes on; `BadEscape` is swallowed with one
event and goes on; `Overflow` resets the Decoder and ends the command with `Err(BufferTooSmall)`, the byte dropped. -/
def Obligations.ReceiveDrainsOneByte : Prop :=
  ∀ (s t : State) (c : Nat) (b : Byte) (r : List Byte) (st : Status), s.decHasFrame = false → s.q = b :: r →
    exec (.decByte b) { s with q := r } = .next t → t.resp = some { status := st, value := .none } →
    (st = .ok →
      exec (.rxReceiveFrame c) s =
        exec (.rxReceiveFrame c) { t with resp := s.resp, trace := s.trace }) ∧
    (st = .badEscape →
      exec (.rxReceiveFrame c) s =
        exec (.rxReceiveFrame c) { t with resp := s.resp, trace := s.trace ++ [.badEscape] }) ∧
    (st = .overflow →
      exec (.rxReceiveFrame c) s = .next
        (({ s with q := r, decIdx := 0, decHasFrame := false, decState := .idle }).respond .bufferTooSmall .none))

/-- R85, R91: a frame that stands whole in the queue is received, with no request to the transport and no cancel
sample: `Ok(|p|)`, the payload in `OUT[0 .. |p|)` and the rest of `OUT` as it was, the Decoder reset, the bytes behind
the frame still queued, the Encoder and the ports as they were. -/
def Obligations.ReceiveReturnsTheQueuedFrame : Prop :=
  ∀ (s : State) (c : Nat) (p rest : List Byte), s.DecoderInv → s.decHasFrame = false →
    s.decState = .idle ∨ s.decState = .frameOpen → 1 ≤ p.length → p.length ≤ s.cfg.decCap → p.length ≤ c →
    s.q = frame s.cfg.variant p ++ rest →
    ∃ m o : Memory,
      exec (.rxReceiveFrame c) s = .next
        (({ s with q := rest, dbuf := m, out := o, decIdx := 0, decHasFrame := false, decState := .idle }).respond
          .ok (.payloadLength p.length)) ∧
      (∀ i < p.length, Memory.read o i = p[i]?) ∧ (∀ i, p.length ≤ i → Memory.read o i = Memory.read s.out i)

/-- R92: the command does not stop half-way. From every state, as long as the transport keeps its obligation,
`RX_RECEIVE_FRAME` either completes with a response or waits for the transport's answer to a `recv` request, with the
queue drained and no frame pending. -/
def Obligations.ReceiveCompletesOrWaits : Prop :=
  ∀ (s : State) (c : Nat), (∀ a ∈ s.recvIn, answerOk s a) →
    ∃ t, exec (.rxReceiveFrame c) s = .next t ∧
      ((t.rx = none ∧ ∃ r tr, t.resp = some r ∧ t.trace = tr ++ [.response r] ∧
          r.status ∈ [Status.ok, .bufferTooSmall, .transportError, .cancelled]) ∨
        (t.rx = some c ∧ t.recvPending = true ∧ t.recvIn = [] ∧ t.q = [] ∧ t.decHasFrame = false ∧
          t.resp = s.resp))

/-- R91, R97, R98, R99, R104: what the command leaves when it completes. After `Ok` and `BufferTooSmall` the Decoder is
in its reset state; after `TransportError` and `Cancelled` the queue is empty; `OUT` is written on `Ok(L)` only, and
then only below `L`, with `L ≤ C`; the Encoder is never touched. -/
def Obligations.ReceiveLeavesWhatTheTableSays : Prop :=
  ∀ (s t : State) (c : Nat) (r : Response), exec (.rxReceiveFrame c) s = .next t → t.rx = none → t.resp = some r →
    (r.status = .ok ∨ r.status = .bufferTooSmall → t.decIdx = 0 ∧ t.decHasFrame = false ∧ t.decState = .idle) ∧
    (r.status = .transportError ∨ r.status = .cancelled → t.q = [] ∧ t.decHasFrame = false) ∧
    (r.status ≠ .ok → t.out = s.out ∧ r.value = .none) ∧
    (r.status = .ok → ∃ l, r.value = .payloadLength l ∧ l ≤ c ∧ ∀ i, l ≤ i → Memory.read t.out i = Memory.read s.out i) ∧
    t.encWidx = s.encWidx ∧ t.obuf = s.obuf

/-- R30, R33 (b): how the transport cuts the line into answers does not matter. Two receivers that differ only in how
the same bytes ahead are spread over the queue and `Data` answers, no cancel request being made, give the same response,
write the same `OUT`, leave the Decoder the same, and have the same bytes still ahead. -/
def Obligations.ChunkingOfTheLineDoesNotMatter : Prop :=
  ∀ (s t s' t' : State) (c : Nat) (us ws : List (List Byte)) (q : List Byte), s.cfg.Valid →
    (∀ w ∈ us, 1 ≤ w.length ∧ w.length ≤ s.cfg.scratchSize) → (∀ w ∈ ws, 1 ≤ w.length ∧ w.length ≤ s.cfg.scratchSize) →
    s.cancelReq = false → s.cancelIn = [] → s.recvPending = false →
    s.recvIn = us.map .data → t = { s with q := q, recvIn := ws.map .data } → stream s = stream t →
    exec (.rxReceiveFrame c) s = .next s' → exec (.rxReceiveFrame c) t = .next t' →
    s'.rx = t'.rx ∧ s'.resp = t'.resp ∧ s'.out = t'.out ∧ s'.decIdx = t'.decIdx ∧ s'.decHasFrame = t'.decHasFrame ∧
      s'.decState = t'.decState ∧ s'.dbuf = t'.dbuf ∧ stream s' = stream t'

/-! ### Status and state codes -/

/-- R11, R52: each status row completes the operation with its status and no value, and its code is the status's; the
codes 6 and 7 are no status's, and their row has no step. -/
def Obligations.StatusRowsReturnTheirStatus : Prop :=
  (∀ (s : State) (i : Instr) (st : Status), statusOf i = some st →
    exec i s = .next (s.respond st .none) ∧ encode i = .coded .status3 ((statusCode st).setWidth 16) Operands.zero) ∧
  (∀ st : Status, statusCode st ≠ 6#3 ∧ statusCode st ≠ 7#3) ∧
  ∀ (s : State) (x : BitVec 1), exec (.stNever67 x) s = .refused .statusNeverProduced

/-- R11, R18: each state row is the transition to its state, and its code is the state's. -/
def Obligations.StateRowsAreTransitions : Prop :=
  ∀ (s : State) (i : Instr) (d : DecState), decStateOf i = some d →
    exec i s = .next { s with decState := d } ∧
      encode i = .coded .state2 ((decStateCode d).setWidth 16) Operands.zero

/-- R52, R93, R101: a command that completes gives exactly one response, at the end of what is observed, and its status
is one that command may return: `ENCODE` `Ok` or `Overflow`, `DEC_BYTE` `Ok`, `Overflow` or `BadEscape`, the reads and
`DEC_RESET` `Ok`, `RX_RECEIVE_FRAME` `Ok`, `BufferTooSmall`, `TransportError` or `Cancelled`. Before the response only
`RX_RECEIVE_FRAME` is observed to do anything, and while it waits it gives none. Only `ENCODE`'s response leaves an
attached sender (R60) anything to send. -/
def Obligations.CommandsGiveOneResponse : Prop :=
  ∀ (s t : State) (i : Instr) (allowed : List Status),
    ((∃ p, i = .encode p) ∧ allowed = [.ok, .overflow]) ∨
      ((∃ b, i = .decByte b) ∧ allowed = [.ok, .overflow, .badEscape]) ∨
      ((i = .decHasFrame ∨ i = .decTakeFrame ∨ i = .decReset) ∧ allowed = [.ok]) ∨
      ((∃ c, i = .rxReceiveFrame c) ∧ allowed = [.ok, .bufferTooSmall, .transportError, .cancelled]) →
    exec i s = .next t →
    ∃ evs : List Event, (∀ r, Event.response r ∉ evs) ∧ ((∀ c, i ≠ .rxReceiveFrame c) → evs = [] ∧ t.rx = none) ∧
      (t.rx = none →
        ∃ r, t.resp = some r ∧ t.trace = s.trace ++ evs ++ [.response r] ∧ r.status ∈ allowed ∧
          (r.status ≠ .ok → r.value = .none) ∧ ((∀ p, i ≠ .encode p) → t.toSend = [])) ∧
      (t.rx ≠ none → t.resp = s.resp ∧ t.trace = s.trace ++ evs)

/-! ### The whole machine -/

/-- R7, R24, R36: nothing changes the construction parameters: no instruction and no step. -/
def Obligations.ParametersNeverChange : Prop :=
  (∀ (s t : State) (i : Instr), exec i s = .next t → t.cfg = s.cfg) ∧
  ∀ s t : State, step s = .next t → t.cfg = s.cfg

/-- R19: `dec.has_frame` becomes 1 only by the wire byte `END` in `Decoding`, and becomes 0 only by `DEC_RESET` or by
the Receiver that applies it. -/
def Obligations.OnlyEndSetsHasFrame : Prop :=
  ∀ (s t : State) (i : Instr), exec i s = .next t →
    (s.decHasFrame = false → t.decHasFrame = true →
      s.decState = .decoding ∧ (i = .decByte 0xC0#8 ∨ i = .wireEnd ∨ i = .wireData 0xC0#8)) ∧
    (s.decHasFrame = true → t.decHasFrame = false → i = .decReset ∨ ∃ c, i = .rxReceiveFrame c)

/-- R27, R104: the units do not touch each other. What reads or writes the Decoder leaves the Encoder as it is and the
other way round; only the Receiver and the queue operations touch the queue; only `RX_RECEIVE_FRAME` writes `OUT`. -/
def Obligations.UnitsDoNotTouchEachOther : Prop :=
  ∀ (s t : State) (i : Instr), exec i s = .next t →
    ((rawByteOf i).isNone = true ∧ (∀ p, i ≠ .encode p) → t.encWidx = s.encWidx ∧ t.obuf = s.obuf) ∧
    ((rawByteOf i).isSome = true ∨ (∃ p, i = .encode p) →
      t.decIdx = s.decIdx ∧ t.decHasFrame = s.decHasFrame ∧ t.decState = s.decState ∧ t.dbuf = s.dbuf) ∧
    ((∀ c, i ≠ .rxReceiveFrame c) → t.out = s.out) ∧
    ((∀ c, i ≠ .rxReceiveFrame c) → (∀ w, i ≠ .qPush w) → i ≠ .qPop → i ≠ .qReset → t.q = s.q) ∧
    ((∀ c, i ≠ .rxReceiveFrame c) → i ≠ .recv → t.scratch = s.scratch ∧ t.recvIn = s.recvIn)

/-- R31, R38: indices stay within their capacities, the queue within its own, every buffer canonical and within its
capacity, and every byte below a live index written: every instruction keeps this, the micro-operations too. -/
def Obligations.EveryInstructionKeepsTheStateSound : Prop :=
  ∀ (s t : State) (i : Instr), s.Sound → exec i s = .next t → t.Sound

/-- The invariant of a machine driven by its host (R38, R50, R74, R92): every step keeps it. -/
def Obligations.EveryStepKeepsTheInvariant : Prop :=
  ∀ s t : State, s.Inv → step s = .next t → t.Inv

/-- The invariant holds at reset, of every instance. -/
def Obligations.InvariantHoldsAtReset : Prop :=
  State.reset.Inv ∧ ∀ c : Config, c.Valid → (State.resetOf c).Inv

/-- R10, R26, U1, U2: no step lets anyone see an unspecified byte. Two states that differ only in `OBUF` beyond
`enc.widx`, `DBUF` beyond `dec.idx`, `SCRATCH` and the free values have the same outcome: the same refusal, or next
states that again differ only so, with the same responses, requests and events. -/
def Obligations.UnspecifiedBytesAreNeverSeen : Prop :=
  ∀ s t : State, s.SameButUnspecified t → sameOutcome (step s) (step t)
end

