-- ==== Sys2Proof/Laws/Escape.lean ====
section
/-! SUPPORT. The laws of the escape table (R41 to R45), of escaping a payload, and of the frame. -/

namespace Sys2Proof.Machine

/-- The rows of the table in force, one by one (R41). -/
theorem escSecond_cases {v : Variant} {b s : Byte} (h : escSecond v b = some s) :
    (b = 0xC0#8 ∧ s = 0xDC#8) ∨ (b = 0xDB#8 ∧ s = 0xDD#8) ∨
      (b = 0x11#8 ∧ s = 0xDE#8 ∧ v = .threeWire) ∨ (b = 0x13#8 ∧ s = 0xDF#8 ∧ v = .threeWire) := by
  simp only [escSecond, bEscEnd, bEscEsc, bEsc11, bEsc13] at h
  split at h
  · exact .inl ⟨‹_›, by simpa using h.symm⟩
  split at h
  · exact .inr (.inl ⟨‹_›, by simpa using h.symm⟩)
  split at h
  · rename_i hb
    exact .inr (.inr (.inl ⟨hb.1, by simpa using h.symm, hb.2⟩))
  split at h
  · rename_i hb
    exact .inr (.inr (.inr ⟨hb.1, by simpa using h.symm, hb.2⟩))
  · cases h

/-- A byte with no row is neither marker (R41). -/
theorem cls_of_escSecond_none {v : Variant} {b : Byte} (h : escSecond v b = none) : cls b = .other := by
  simp only [escSecond] at h
  split at h
  · cases h
  split at h
  · cases h
  simp [cls, *]

/-- `unesc` undoes the table (R43, R44). -/
theorem unesc_of_escSecond {v : Variant} {b s : Byte} (h : escSecond v b = some s) : unesc v s = some b := by
  rcases escSecond_cases h with ⟨rfl, rfl⟩ | ⟨rfl, rfl⟩ | ⟨rfl, rfl, rfl⟩ | ⟨rfl, rfl, rfl⟩ <;>
    simp [unesc]

/-- `unesc` is the inverse of the table (R43). -/
theorem unesc_eq_some {v : Variant} {b r : Byte} : unesc v b = some r ↔ escSecond v r = some b := by
  refine ⟨fun h => ?_, unesc_of_escSecond⟩
  simp only [unesc] at h
  split at h
  · cases h
    simp_all [escSecond, bEscEnd]
  split at h
  · cases h
    simp_all [escSecond, bEscEsc]
  split at h
  · cases h
    simp_all [escSecond, bEsc11]
  split at h
  · cases h
    simp_all [escSecond, bEsc13]
  · cases h

/-- The escape sequence of a byte, by its row (R42). -/
theorem esc_of_some {v : Variant} {b s : Byte} (h : escSecond v b = some s) : esc v b = [bEsc, s] := by
  simp [esc, h]

theorem esc_of_none {v : Variant} {b : Byte} (h : escSecond v b = none) : esc v b = [b] := by
  simp [esc, h]

/-- An escape sequence has two bytes exactly when it is `ESC` and the byte's second byte (R42). -/
theorem esc_eq_pair {v : Variant} {b s : Byte} : esc v b = [bEsc, s] ↔ escSecond v b = some s := by
  cases h : escSecond v b <;> simp [esc, h]

@[simp] theorem cls_bEnd : cls bEnd = .endMark := rfl

@[simp] theorem cls_bEsc : cls bEsc = .escMark := rfl

theorem cls_eq_endMark {b : Byte} : cls b = .endMark ↔ b = 0xC0#8 := by
  simp only [cls]
  split
  · simp [*]
  · split <;> simp [*]

theorem cls_eq_escMark {b : Byte} : cls b = .escMark ↔ b = 0xDB#8 := by
  simp only [cls]
  split
  · simp [*]
  · split <;> simp [*]

theorem cls_eq_other {b : Byte} : cls b = .other ↔ b ≠ 0xC0#8 ∧ b ≠ 0xDB#8 := by
  simp only [cls]
  split
  · simp [*]
  · split <;> simp [*]

/-- Neither marker is a second byte (R43, R44). -/
@[simp] theorem unesc_markers (v : Variant) : unesc v 0xC0#8 = none ∧ unesc v 0xDB#8 = none := by
  cases v <;> decide

/-- `|esc(b)|` is 2 exactly for the reserved bytes (R42). -/
theorem esc_length (v : Variant) (b : Byte) : (esc v b).length = if reserved v b then 2 else 1 := by
  cases h : escSecond v b <;> simp [esc, reserved, h]

@[simp] theorem escapeAll_nil (v : Variant) : escapeAll v [] = [] := rfl

@[simp] theorem escapeAll_cons (v : Variant) (b : Byte) (p : List Byte) :
    escapeAll v (b :: p) = esc v b ++ escapeAll v p := rfl

theorem escapeAll_length (v : Variant) (p : List Byte) :
    (escapeAll v p).length = (p.map fun b => (esc v b).length).sum := by
  induction p with
  | nil => rfl
  | cons b p ih => simp [ih]

/-- The length tested first is the length of the frame written (R54). -/
theorem frame_length (v : Variant) (p : List Byte) : (frame v p).length = frameLen v p := by
  simp [frame, frameLen, escapeAll_length]
  omega

end Sys2Proof.Machine
end

