-- ==== Sys2Proof/Laws/Memory.lean ====
section
/-! SUPPORT. The laws of one buffer: read after write, the canonical form, the capacity, and writing a sequence. -/

namespace Sys2Proof.Machine

@[simp] theorem Memory.read_nil (i : Nat) : Memory.read [] i = none := rfl

@[simp] theorem Memory.read_unspecified (i : Nat) : Memory.read Memory.unspecified i = none := rfl

/-- A read after a write to the same place gives the value written; every other place reads as before. -/
theorem Memory.read_write (m : Memory) (i j : Nat) (v : Byte) :
    Memory.read (Memory.write m i v) j = if j = i then some v else Memory.read m j := by
  induction m with
  | nil => simp [Memory.write, Memory.read]
  | cons c m ih =>
    obtain ⟨k, u⟩ := c
    simp only [Memory.write]
    split
    · simp [Memory.read]
    · split
      · rename_i h
        subst h
        simp only [Memory.read]
        split <;> rfl
      · rename_i hne
        simp only [Memory.read, ih]
        split
        · rename_i hjk
          subst hjk
          simp [Ne.symm hne]
        · rfl

@[simp] theorem Memory.read_write_self (m : Memory) (i : Nat) (v : Byte) :
    Memory.read (Memory.write m i v) i = some v := by
  simp [Memory.read_write]

theorem Memory.read_write_other (m : Memory) {i j : Nat} (h : j ≠ i) (v : Byte) :
    Memory.read (Memory.write m i v) j = Memory.read m j := by
  simp [Memory.read_write, h]

theorem Memory.mem_write {m : Memory} {i : Nat} {v : Byte} {c : Host.Cell} (h : c ∈ Memory.write m i v) :
    c = (i, v) ∨ c ∈ m := by
  induction m with
  | nil => simpa [Memory.write] using h
  | cons d m ih =>
    obtain ⟨k, u⟩ := d
    simp only [Memory.write] at h
    split at h
    · simpa using h
    · split at h
      · rcases List.mem_cons.1 h with h | h
        · exact .inl h
        · exact .inr (List.mem_cons_of_mem _ h)
      · rcases List.mem_cons.1 h with h | h
        · exact .inr (by simp [h])
        · exact (ih h).imp_right (List.mem_cons_of_mem _)

/-- A write keeps the canonical form. -/
theorem Memory.wf_write {m : Memory} (h : m.wf) (i : Nat) (v : Byte) : (Memory.write m i v).wf := by
  induction m with
  | nil => simp [Memory.write]
  | cons d m ih =>
    obtain ⟨k, u⟩ := d
    obtain ⟨hk, hm⟩ := List.pairwise_cons.1 h
    simp only [Memory.write]
    split
    · rename_i hik
      refine List.pairwise_cons.2 ⟨fun c hc => ?_, h⟩
      rcases List.mem_cons.1 hc with rfl | hc
      · exact hik
      · exact hik.trans (hk c hc)
    · split
      · rename_i hik
        subst hik
        exact List.pairwise_cons.2 ⟨hk, hm⟩
      · refine List.pairwise_cons.2 ⟨fun c hc => ?_, ih hm⟩
        rcases Memory.mem_write hc with rfl | hc
        · simp only
          omega
        · exact hk c hc

/-- A write below the capacity keeps every cell below it. -/
theorem Memory.within_write {m : Memory} {cap i : Nat} (h : m.within cap) (hi : i < cap) (v : Byte) :
    (Memory.write m i v).within cap := by
  intro c hc
  rcases Memory.mem_write hc with rfl | hc
  · exact hi
  · exact h c hc

/-- Appending at the first unwritten index makes one more cell filled. -/
theorem Memory.filled_write {m : Memory} {n : Nat} (h : m.filled n) (v : Byte) :
    (Memory.write m n v).filled (n + 1) := by
  intro i hi
  rw [Memory.read_write]
  split
  · rfl
  · exact h i (by omega)

@[simp] theorem Memory.wf_unspecified : Memory.unspecified.wf := List.Pairwise.nil

@[simp] theorem Memory.within_unspecified (cap : Nat) : Memory.unspecified.within cap := by
  intro c hc
  cases hc

@[simp] theorem Memory.filled_zero (m : Memory) : m.filled 0 := by
  intro i hi
  omega

@[simp] theorem Memory.writeSeq_nil (m : Memory) (i : Nat) : Memory.writeSeq m i [] = m := rfl

@[simp] theorem Memory.writeSeq_cons (m : Memory) (i : Nat) (v : Byte) (w : List Byte) :
    Memory.writeSeq m i (v :: w) = Memory.writeSeq (Memory.write m i v) (i + 1) w := rfl

theorem Memory.writeSeq_append (m : Memory) (i : Nat) (u w : List Byte) :
    Memory.writeSeq m i (u ++ w) = Memory.writeSeq (Memory.writeSeq m i u) (i + u.length) w := by
  induction u generalizing m i with
  | nil => simp
  | cons a u ih =>
    have e : i + (a :: u).length = i + 1 + u.length := by simp; omega
    rw [List.cons_append, Memory.writeSeq_cons, Memory.writeSeq_cons, ih, e]

/-- What a sequence written at `i` reads as, everywhere. -/
theorem Memory.read_writeSeq (m : Memory) (i j : Nat) (w : List Byte) :
    Memory.read (Memory.writeSeq m i w) j =
      if i ≤ j ∧ j < i + w.length then w[j - i]? else Memory.read m j := by
  induction w generalizing m i with
  | nil => simp
  | cons v w ih =>
    rw [Memory.writeSeq_cons, ih, Memory.read_write]
    simp only [List.length_cons]
    by_cases h : j = i
    · subst h
      simp
    · by_cases h2 : i + 1 ≤ j ∧ j < i + 1 + w.length
      · rw [if_pos h2, if_pos (by omega)]
        obtain ⟨k, rfl⟩ : ∃ k, j = i + 1 + k := ⟨j - (i + 1), by omega⟩
        simp [show i + 1 + k - i = k + 1 by omega]
      · rw [if_neg h2, if_neg h, if_neg (by omega)]

theorem Memory.wf_writeSeq {m : Memory} (h : m.wf) (i : Nat) (w : List Byte) : (Memory.writeSeq m i w).wf := by
  induction w generalizing m i with
  | nil => exact h
  | cons v w ih => exact ih (Memory.wf_write h i v) (i + 1)

theorem Memory.within_writeSeq {m : Memory} {cap i : Nat} (h : m.within cap) (w : List Byte) (hw : i + w.length ≤ cap) :
    (Memory.writeSeq m i w).within cap := by
  induction w generalizing m i with
  | nil => exact h
  | cons v w ih =>
    simp only [List.length_cons] at hw
    exact ih (Memory.within_write h (by omega) v) (by omega)

theorem Memory.filled_writeSeq {m : Memory} {n : Nat} (h : m.filled n) (w : List Byte) :
    (Memory.writeSeq m n w).filled (n + w.length) := by
  induction w generalizing m n with
  | nil => exact h
  | cons v w ih =>
    have e : n + (v :: w).length = n + 1 + w.length := by simp; omega
    rw [e]
    exact ih (Memory.filled_write h v)

end Sys2Proof.Machine
end

