-- ==== Sys2Proof/Laws/State.lean ====
section
/-! SUPPORT. What each shared operation writes and what it leaves, one field after another: every lemma is the
conjunction of one equation per field of State, so that simp gets one rule per field and no later proof unfolds a record
update. -/

namespace Sys2Proof.Machine

@[simp] theorem State.respond_fields (s : State) (st : Status) (v : RespValue) :
    (s.respond st v).cfg = s.cfg ∧ (s.respond st v).encWidx = s.encWidx ∧ (s.respond st v).obuf = s.obuf ∧
      (s.respond st v).decIdx = s.decIdx ∧ (s.respond st v).decHasFrame = s.decHasFrame ∧
      (s.respond st v).decState = s.decState ∧ (s.respond st v).dbuf = s.dbuf ∧ (s.respond st v).q = s.q ∧
      (s.respond st v).scratch = s.scratch ∧ (s.respond st v).out = s.out ∧ (s.respond st v).rx = none ∧
      (s.respond st v).recvPending = s.recvPending ∧ (s.respond st v).resp = some { status := st, value := v } ∧
      (s.respond st v).returned = s.returned ∧
      (s.respond st v).trace = s.trace ++ [.response { status := st, value := v }] ∧
      (s.respond st v).hostIn = s.hostIn ∧ (s.respond st v).recvIn = s.recvIn ∧
      (s.respond st v).cancelReq = s.cancelReq ∧ (s.respond st v).cancelIn = s.cancelIn ∧
      (s.respond st v).rst = s.rst ∧ (s.respond st v).freeGen = s.freeGen :=
  by and_intros <;> rfl

@[simp] theorem State.goto_fields (s : State) (d : DecState) :
    (s.goto d).cfg = s.cfg ∧ (s.goto d).encWidx = s.encWidx ∧ (s.goto d).obuf = s.obuf ∧
      (s.goto d).decIdx = s.decIdx ∧ (s.goto d).decHasFrame = s.decHasFrame ∧ (s.goto d).decState = d ∧
      (s.goto d).dbuf = s.dbuf ∧ (s.goto d).q = s.q ∧ (s.goto d).scratch = s.scratch ∧ (s.goto d).out = s.out ∧
      (s.goto d).rx = s.rx ∧ (s.goto d).recvPending = s.recvPending ∧ (s.goto d).resp = s.resp ∧
      (s.goto d).returned = s.returned ∧ (s.goto d).trace = s.trace ∧ (s.goto d).hostIn = s.hostIn ∧
      (s.goto d).recvIn = s.recvIn ∧ (s.goto d).cancelReq = s.cancelReq ∧ (s.goto d).cancelIn = s.cancelIn ∧
      (s.goto d).rst = s.rst ∧ (s.goto d).freeGen = s.freeGen :=
  by and_intros <;> rfl

@[simp] theorem State.setHasFrame_fields (s : State) :
    (s.setHasFrame).cfg = s.cfg ∧ (s.setHasFrame).encWidx = s.encWidx ∧ (s.setHasFrame).obuf = s.obuf ∧
      (s.setHasFrame).decIdx = s.decIdx ∧ (s.setHasFrame).decHasFrame = true ∧
      (s.setHasFrame).decState = s.decState ∧ (s.setHasFrame).dbuf = s.dbuf ∧ (s.setHasFrame).q = s.q ∧
      (s.setHasFrame).scratch = s.scratch ∧ (s.setHasFrame).out = s.out ∧ (s.setHasFrame).rx = s.rx ∧
      (s.setHasFrame).recvPending = s.recvPending ∧ (s.setHasFrame).resp = s.resp ∧
      (s.setHasFrame).returned = s.returned ∧ (s.setHasFrame).trace = s.trace ∧ (s.setHasFrame).hostIn = s.hostIn ∧
      (s.setHasFrame).recvIn = s.recvIn ∧ (s.setHasFrame).cancelReq = s.cancelReq ∧
      (s.setHasFrame).cancelIn = s.cancelIn ∧ (s.setHasFrame).rst = s.rst ∧ (s.setHasFrame).freeGen = s.freeGen :=
  by and_intros <;> rfl

@[simp] theorem State.clearHasFrame_fields (s : State) :
    (s.clearHasFrame).cfg = s.cfg ∧ (s.clearHasFrame).encWidx = s.encWidx ∧ (s.clearHasFrame).obuf = s.obuf ∧
      (s.clearHasFrame).decIdx = s.decIdx ∧ (s.clearHasFrame).decHasFrame = false ∧
      (s.clearHasFrame).decState = s.decState ∧ (s.clearHasFrame).dbuf = s.dbuf ∧ (s.clearHasFrame).q = s.q ∧
      (s.clearHasFrame).scratch = s.scratch ∧ (s.clearHasFrame).out = s.out ∧ (s.clearHasFrame).rx = s.rx ∧
      (s.clearHasFrame).recvPending = s.recvPending ∧ (s.clearHasFrame).resp = s.resp ∧
      (s.clearHasFrame).returned = s.returned ∧ (s.clearHasFrame).trace = s.trace ∧
      (s.clearHasFrame).hostIn = s.hostIn ∧ (s.clearHasFrame).recvIn = s.recvIn ∧
      (s.clearHasFrame).cancelReq = s.cancelReq ∧ (s.clearHasFrame).cancelIn = s.cancelIn ∧
      (s.clearHasFrame).rst = s.rst ∧ (s.clearHasFrame).freeGen = s.freeGen :=
  by and_intros <;> rfl

@[simp] theorem State.decoderReset_fields (s : State) :
    (s.decoderReset).cfg = s.cfg ∧ (s.decoderReset).encWidx = s.encWidx ∧ (s.decoderReset).obuf = s.obuf ∧
      (s.decoderReset).decIdx = 0 ∧ (s.decoderReset).decHasFrame = false ∧ (s.decoderReset).decState = .idle ∧
      (s.decoderReset).dbuf = s.dbuf ∧ (s.decoderReset).q = s.q ∧ (s.decoderReset).scratch = s.scratch ∧
      (s.decoderReset).out = s.out ∧ (s.decoderReset).rx = s.rx ∧ (s.decoderReset).recvPending = s.recvPending ∧
      (s.decoderReset).resp = s.resp ∧ (s.decoderReset).returned = s.returned ∧ (s.decoderReset).trace = s.trace ∧
      (s.decoderReset).hostIn = s.hostIn ∧ (s.decoderReset).recvIn = s.recvIn ∧
      (s.decoderReset).cancelReq = s.cancelReq ∧ (s.decoderReset).cancelIn = s.cancelIn ∧
      (s.decoderReset).rst = s.rst ∧ (s.decoderReset).freeGen = s.freeGen :=
  by and_intros <;> rfl

@[simp] theorem State.dropFrame_fields (s : State) :
    (s.dropFrame).cfg = s.cfg ∧ (s.dropFrame).encWidx = s.encWidx ∧ (s.dropFrame).obuf = s.obuf ∧
      (s.dropFrame).decIdx = 0 ∧ (s.dropFrame).decHasFrame = s.decHasFrame ∧ (s.dropFrame).decState = .idle ∧
      (s.dropFrame).dbuf = s.dbuf ∧ (s.dropFrame).q = s.q ∧ (s.dropFrame).scratch = s.scratch ∧
      (s.dropFrame).out = s.out ∧ (s.dropFrame).rx = s.rx ∧ (s.dropFrame).recvPending = s.recvPending ∧
      (s.dropFrame).resp = s.resp ∧ (s.dropFrame).returned = s.returned ∧ (s.dropFrame).trace = s.trace ∧
      (s.dropFrame).hostIn = s.hostIn ∧ (s.dropFrame).recvIn = s.recvIn ∧ (s.dropFrame).cancelReq = s.cancelReq ∧
      (s.dropFrame).cancelIn = s.cancelIn ∧ (s.dropFrame).rst = s.rst ∧ (s.dropFrame).freeGen = s.freeGen :=
  by and_intros <;> rfl

@[simp] theorem State.emit_fields (s : State) (v : Byte) :
    (s.emit v).cfg = s.cfg ∧ (s.emit v).encWidx = s.encWidx + 1 ∧ (s.emit v).obuf = Memory.write s.obuf s.encWidx v ∧
      (s.emit v).decIdx = s.decIdx ∧ (s.emit v).decHasFrame = s.decHasFrame ∧ (s.emit v).decState = s.decState ∧
      (s.emit v).dbuf = s.dbuf ∧ (s.emit v).q = s.q ∧ (s.emit v).scratch = s.scratch ∧ (s.emit v).out = s.out ∧
      (s.emit v).rx = s.rx ∧ (s.emit v).recvPending = s.recvPending ∧ (s.emit v).resp = s.resp ∧
      (s.emit v).returned = s.returned ∧ (s.emit v).trace = s.trace ∧ (s.emit v).hostIn = s.hostIn ∧
      (s.emit v).recvIn = s.recvIn ∧ (s.emit v).cancelReq = s.cancelReq ∧ (s.emit v).cancelIn = s.cancelIn ∧
      (s.emit v).rst = s.rst ∧ (s.emit v).freeGen = s.freeGen :=
  by and_intros <;> rfl

@[simp] theorem State.encoderStart_fields (s : State) :
    (s.encoderStart).cfg = s.cfg ∧ (s.encoderStart).encWidx = 0 ∧ (s.encoderStart).obuf = Memory.unspecified ∧
      (s.encoderStart).decIdx = s.decIdx ∧ (s.encoderStart).decHasFrame = s.decHasFrame ∧
      (s.encoderStart).decState = s.decState ∧ (s.encoderStart).dbuf = s.dbuf ∧ (s.encoderStart).q = s.q ∧
      (s.encoderStart).scratch = s.scratch ∧ (s.encoderStart).out = s.out ∧ (s.encoderStart).rx = s.rx ∧
      (s.encoderStart).recvPending = s.recvPending ∧ (s.encoderStart).resp = s.resp ∧
      (s.encoderStart).returned = s.returned ∧ (s.encoderStart).trace = s.trace ∧
      (s.encoderStart).hostIn = s.hostIn ∧ (s.encoderStart).recvIn = s.recvIn ∧
      (s.encoderStart).cancelReq = s.cancelReq ∧ (s.encoderStart).cancelIn = s.cancelIn ∧
      (s.encoderStart).rst = s.rst ∧ (s.encoderStart).freeGen = s.freeGen :=
  by and_intros <;> rfl

@[simp] theorem State.setQueue_fields (s : State) (q : List Byte) :
    (s.setQueue q).cfg = s.cfg ∧ (s.setQueue q).encWidx = s.encWidx ∧ (s.setQueue q).obuf = s.obuf ∧
      (s.setQueue q).decIdx = s.decIdx ∧ (s.setQueue q).decHasFrame = s.decHasFrame ∧
      (s.setQueue q).decState = s.decState ∧ (s.setQueue q).dbuf = s.dbuf ∧ (s.setQueue q).q = q ∧
      (s.setQueue q).scratch = s.scratch ∧ (s.setQueue q).out = s.out ∧ (s.setQueue q).rx = s.rx ∧
      (s.setQueue q).recvPending = s.recvPending ∧ (s.setQueue q).resp = s.resp ∧
      (s.setQueue q).returned = s.returned ∧ (s.setQueue q).trace = s.trace ∧ (s.setQueue q).hostIn = s.hostIn ∧
      (s.setQueue q).recvIn = s.recvIn ∧ (s.setQueue q).cancelReq = s.cancelReq ∧
      (s.setQueue q).cancelIn = s.cancelIn ∧ (s.setQueue q).rst = s.rst ∧ (s.setQueue q).freeGen = s.freeGen :=
  by and_intros <;> rfl

@[simp] theorem State.queuePush_fields (s : State) (w : List Byte) :
    (s.queuePush w).cfg = s.cfg ∧ (s.queuePush w).encWidx = s.encWidx ∧ (s.queuePush w).obuf = s.obuf ∧
      (s.queuePush w).decIdx = s.decIdx ∧ (s.queuePush w).decHasFrame = s.decHasFrame ∧
      (s.queuePush w).decState = s.decState ∧ (s.queuePush w).dbuf = s.dbuf ∧
      (s.queuePush w).q = w.foldl (pushByte s.cfg.qCap) s.q ∧ (s.queuePush w).scratch = s.scratch ∧
      (s.queuePush w).out = s.out ∧ (s.queuePush w).rx = s.rx ∧ (s.queuePush w).recvPending = s.recvPending ∧
      (s.queuePush w).resp = s.resp ∧ (s.queuePush w).returned = s.returned ∧ (s.queuePush w).trace = s.trace ∧
      (s.queuePush w).hostIn = s.hostIn ∧ (s.queuePush w).recvIn = s.recvIn ∧
      (s.queuePush w).cancelReq = s.cancelReq ∧ (s.queuePush w).cancelIn = s.cancelIn ∧ (s.queuePush w).rst = s.rst ∧
      (s.queuePush w).freeGen = s.freeGen :=
  by and_intros <;> rfl

@[simp] theorem State.queueReset_fields (s : State) :
    (s.queueReset).cfg = s.cfg ∧ (s.queueReset).encWidx = s.encWidx ∧ (s.queueReset).obuf = s.obuf ∧
      (s.queueReset).decIdx = s.decIdx ∧ (s.queueReset).decHasFrame = s.decHasFrame ∧
      (s.queueReset).decState = s.decState ∧ (s.queueReset).dbuf = s.dbuf ∧ (s.queueReset).q = [] ∧
      (s.queueReset).scratch = s.scratch ∧ (s.queueReset).out = s.out ∧ (s.queueReset).rx = s.rx ∧
      (s.queueReset).recvPending = s.recvPending ∧ (s.queueReset).resp = s.resp ∧
      (s.queueReset).returned = s.returned ∧ (s.queueReset).trace = s.trace ∧ (s.queueReset).hostIn = s.hostIn ∧
      (s.queueReset).recvIn = s.recvIn ∧ (s.queueReset).cancelReq = s.cancelReq ∧
      (s.queueReset).cancelIn = s.cancelIn ∧ (s.queueReset).rst = s.rst ∧ (s.queueReset).freeGen = s.freeGen :=
  by and_intros <;> rfl

@[simp] theorem State.emitBadEscape_fields (s : State) :
    (s.emitBadEscape).cfg = s.cfg ∧ (s.emitBadEscape).encWidx = s.encWidx ∧ (s.emitBadEscape).obuf = s.obuf ∧
      (s.emitBadEscape).decIdx = s.decIdx ∧ (s.emitBadEscape).decHasFrame = s.decHasFrame ∧
      (s.emitBadEscape).decState = s.decState ∧ (s.emitBadEscape).dbuf = s.dbuf ∧ (s.emitBadEscape).q = s.q ∧
      (s.emitBadEscape).scratch = s.scratch ∧ (s.emitBadEscape).out = s.out ∧ (s.emitBadEscape).rx = s.rx ∧
      (s.emitBadEscape).recvPending = s.recvPending ∧ (s.emitBadEscape).resp = s.resp ∧
      (s.emitBadEscape).returned = s.returned ∧ (s.emitBadEscape).trace = s.trace ++ [.badEscape] ∧
      (s.emitBadEscape).hostIn = s.hostIn ∧ (s.emitBadEscape).recvIn = s.recvIn ∧
      (s.emitBadEscape).cancelReq = s.cancelReq ∧ (s.emitBadEscape).cancelIn = s.cancelIn ∧
      (s.emitBadEscape).rst = s.rst ∧ (s.emitBadEscape).freeGen = s.freeGen :=
  by and_intros <;> rfl

@[simp] theorem State.afterCancelSample_fields (s : State) :
    (s.afterCancelSample).cfg = s.cfg ∧ (s.afterCancelSample).encWidx = s.encWidx ∧
      (s.afterCancelSample).obuf = s.obuf ∧ (s.afterCancelSample).decIdx = s.decIdx ∧
      (s.afterCancelSample).decHasFrame = s.decHasFrame ∧ (s.afterCancelSample).decState = s.decState ∧
      (s.afterCancelSample).dbuf = s.dbuf ∧ (s.afterCancelSample).q = s.q ∧
      (s.afterCancelSample).scratch = s.scratch ∧ (s.afterCancelSample).out = s.out ∧
      (s.afterCancelSample).rx = s.rx ∧ (s.afterCancelSample).recvPending = s.recvPending ∧
      (s.afterCancelSample).resp = s.resp ∧ (s.afterCancelSample).returned = s.returned ∧
      (s.afterCancelSample).trace = s.trace ++ [.cancelSampled s.cancelLevel] ∧
      (s.afterCancelSample).hostIn = s.hostIn ∧ (s.afterCancelSample).recvIn = s.recvIn ∧
      (s.afterCancelSample).cancelReq = s.cancelLevel ∧ (s.afterCancelSample).cancelIn = s.cancelIn.tail ∧
      (s.afterCancelSample).rst = s.rst ∧ (s.afterCancelSample).freeGen = s.freeGen :=
  by and_intros <;> rfl

@[simp] theorem State.takeAnswer_fields (s : State) (r : List RecvAnswer) :
    (s.takeAnswer r).cfg = s.cfg ∧ (s.takeAnswer r).encWidx = s.encWidx ∧ (s.takeAnswer r).obuf = s.obuf ∧
      (s.takeAnswer r).decIdx = s.decIdx ∧ (s.takeAnswer r).decHasFrame = s.decHasFrame ∧
      (s.takeAnswer r).decState = s.decState ∧ (s.takeAnswer r).dbuf = s.dbuf ∧ (s.takeAnswer r).q = s.q ∧
      (s.takeAnswer r).scratch = s.scratch ∧ (s.takeAnswer r).out = s.out ∧ (s.takeAnswer r).rx = s.rx ∧
      (s.takeAnswer r).recvPending = false ∧ (s.takeAnswer r).resp = s.resp ∧
      (s.takeAnswer r).returned = s.returned ∧ (s.takeAnswer r).trace = s.trace ∧
      (s.takeAnswer r).hostIn = s.hostIn ∧ (s.takeAnswer r).recvIn = r ∧ (s.takeAnswer r).cancelReq = s.cancelReq ∧
      (s.takeAnswer r).cancelIn = s.cancelIn ∧ (s.takeAnswer r).rst = s.rst ∧ (s.takeAnswer r).freeGen = s.freeGen :=
  by and_intros <;> rfl

@[simp] theorem State.fillScratch_fields (s : State) (w : List Byte) :
    (s.fillScratch w).cfg = s.cfg ∧ (s.fillScratch w).encWidx = s.encWidx ∧ (s.fillScratch w).obuf = s.obuf ∧
      (s.fillScratch w).decIdx = s.decIdx ∧ (s.fillScratch w).decHasFrame = s.decHasFrame ∧
      (s.fillScratch w).decState = s.decState ∧ (s.fillScratch w).dbuf = s.dbuf ∧ (s.fillScratch w).q = s.q ∧
      (s.fillScratch w).scratch = Memory.writeSeq Memory.unspecified 0 w ∧ (s.fillScratch w).out = s.out ∧
      (s.fillScratch w).rx = s.rx ∧ (s.fillScratch w).recvPending = s.recvPending ∧ (s.fillScratch w).resp = s.resp ∧
      (s.fillScratch w).returned = s.returned ∧ (s.fillScratch w).trace = s.trace ∧
      (s.fillScratch w).hostIn = s.hostIn ∧ (s.fillScratch w).recvIn = s.recvIn ∧
      (s.fillScratch w).cancelReq = s.cancelReq ∧ (s.fillScratch w).cancelIn = s.cancelIn ∧
      (s.fillScratch w).rst = s.rst ∧ (s.fillScratch w).freeGen = s.freeGen :=
  by and_intros <;> rfl

@[simp] theorem State.pushScratch_fields (s : State) (n : Nat) :
    (s.pushScratch n).cfg = s.cfg ∧ (s.pushScratch n).encWidx = s.encWidx ∧ (s.pushScratch n).obuf = s.obuf ∧
      (s.pushScratch n).decIdx = s.decIdx ∧ (s.pushScratch n).decHasFrame = s.decHasFrame ∧
      (s.pushScratch n).decState = s.decState ∧ (s.pushScratch n).dbuf = s.dbuf ∧
      (s.pushScratch n).q = (s.bytesBelow .scratch n).foldl (pushByte s.cfg.qCap) s.q ∧
      (s.pushScratch n).scratch = s.scratch ∧ (s.pushScratch n).out = s.out ∧ (s.pushScratch n).rx = s.rx ∧
      (s.pushScratch n).recvPending = s.recvPending ∧ (s.pushScratch n).resp = s.resp ∧
      (s.pushScratch n).returned = s.returned ∧ (s.pushScratch n).trace = s.trace ∧
      (s.pushScratch n).hostIn = s.hostIn ∧ (s.pushScratch n).recvIn = s.recvIn ∧
      (s.pushScratch n).cancelReq = s.cancelReq ∧ (s.pushScratch n).cancelIn = s.cancelIn ∧
      (s.pushScratch n).rst = s.rst ∧ (s.pushScratch n).freeGen = s.freeGen :=
  by and_intros <;> rfl

@[simp] theorem State.blockReset_fields (s : State) :
    (s.blockReset).cfg = s.cfg ∧ (s.blockReset).encWidx = 0 ∧ (s.blockReset).obuf = Memory.unspecified ∧
      (s.blockReset).decIdx = 0 ∧ (s.blockReset).decHasFrame = false ∧ (s.blockReset).decState = .idle ∧
      (s.blockReset).dbuf = Memory.unspecified ∧ (s.blockReset).q = [] ∧
      (s.blockReset).scratch = Memory.unspecified ∧ (s.blockReset).out = s.out ∧ (s.blockReset).rx = none ∧
      (s.blockReset).recvPending = false ∧ (s.blockReset).resp = none ∧ (s.blockReset).returned = none ∧
      (s.blockReset).trace = s.trace ∧ (s.blockReset).hostIn = s.hostIn ∧ (s.blockReset).recvIn = s.recvIn ∧
      (s.blockReset).cancelReq = s.cancelReq ∧ (s.blockReset).cancelIn = s.cancelIn ∧ (s.blockReset).rst = false ∧
      (s.blockReset).freeGen = s.freeGen + 1 :=
  by and_intros <;> rfl

end Sys2Proof.Machine
end

