-- ==== Sys2Proof/Laws/Ops.lean ====
section
/-! SUPPORT. One lemma for each shared operation that says everything it can do, cited instead of unfolding it. -/

namespace Sys2Proof.Machine

@[simp] theorem State.respondOk_eq (s : State) (v : RespValue) : s.respondOk v = s.respond .ok v := rfl

@[simp] theorem State.respondErr_eq (s : State) (e : Status) : s.respondErr e = s.respond e .none := rfl

theorem State.encoderOverflow_eq (s : State) : s.encoderOverflow = s.encoderStart.respond .overflow .none := rfl

@[simp] theorem State.frameTooLong_iff (s : State) (n : Nat) : s.frameTooLong n = true ↔ s.cfg.encCap < n := by
  simp [State.frameTooLong]

@[simp] theorem State.dbufFull_iff (s : State) : s.dbufFull = true ↔ s.decIdx = s.cfg.decCap := by
  simp [State.dbufFull]

@[simp] theorem State.outTooSmall_iff (s : State) (c : Nat) : s.outTooSmall c = true ↔ c < s.decIdx := by
  simp [State.outTooSmall]

@[simp] theorem State.answerInRange_iff (s : State) (w : List Byte) :
    s.answerInRange w = true ↔ 1 ≤ w.length ∧ w.length ≤ s.cfg.scratchSize := by
  simp [State.answerInRange]

@[simp] theorem State.bytesBelow_length (s : State) (buf : Buf) (n : Nat) : (s.bytesBelow buf n).length = n := by
  simp [State.bytesBelow]

/-- Bytes that have been written are read back. -/
theorem State.byteAt_of_read {s : State} {buf : Buf} {i : Nat} {v : Byte}
    (h : Memory.read (s.buffer buf) i = some v) : s.byteAt buf i = v := by
  simp [State.byteAt, h]

/-- `B[0 .. |w|)` is `w` when `w` has been written from index 0. -/
theorem State.bytesBelow_of_writeSeq {s : State} {buf : Buf} {m : Memory} {w : List Byte}
    (h : s.buffer buf = Memory.writeSeq m 0 w) : s.bytesBelow buf w.length = w := by
  refine List.ext_getElem (by simp) fun i h1 h2 => ?_
  have : Memory.read (s.buffer buf) i = some w[i] := by
    simp [h, Memory.read_writeSeq, h2]
  simp [State.bytesBelow, State.byteAt_of_read this]

/-- Writing a sequence at `enc.widx` touches `OBUF` and `enc.widx` only. -/
theorem State.emitSeq_eq (s : State) (w : List Byte) :
    s.emitSeq w = { s with obuf := Memory.writeSeq s.obuf s.encWidx w, encWidx := s.encWidx + w.length } := by
  induction w generalizing s with
  | nil => rfl
  | cons v w ih =>
    rw [State.emitSeq, ih]
    simp only [State.emit, Memory.writeSeq_cons, List.length_cons, State.mk.injEq, and_true, true_and]
    omega

/-- The append primitive, whole (R68). -/
theorem State.appendThen_eq (s : State) (v : Byte) (d : DecState) :
    s.appendThen v d =
      if s.decIdx = s.cfg.decCap then (.overflow, s)
      else (.ok, { s with dbuf := Memory.write s.dbuf s.decIdx v, decIdx := s.decIdx + 1, decState := d }) := by
  by_cases h : s.decIdx = s.cfg.decCap <;> simp [State.appendThen, State.append, h, State.goto]

/-- The net effect of one accepted `DEC_BYTE`: the cells of the state table (R62). -/
inductive State.ByteEffect (s : State) (b : Byte) : Status × State → Prop where
  /-- Noise in `Idle`, or a repeated delimiter in `FrameOpen`. -/
  | ignored (h : (s.decState = .idle ∧ b ≠ 0xC0#8) ∨ (s.decState = .frameOpen ∧ b = 0xC0#8)) : ByteEffect s b (.ok, s)
  /-- The opening `END`. -/
  | opens (hs : s.decState = .idle) (hb : b = 0xC0#8) : ByteEffect s b (.ok, s.goto .frameOpen)
  /-- `ESC` while a frame is open. -/
  | escapes (hs : s.decState = .frameOpen ∨ s.decState = .decoding) (hb : b = 0xDB#8) :
      ByteEffect s b (.ok, s.goto .escaping)
  /-- The closing `END`. -/
  | completes (hs : s.decState = .decoding) (hb : b = 0xC0#8) : ByteEffect s b (.ok, s.setHasFrame.goto .idle)
  /-- A payload byte `v` that fits. -/
  | appends (v : Byte) (hs : s.decState ≠ .idle) (hcap : s.decIdx ≠ s.cfg.decCap)
      (hv : (s.decState ≠ .escaping ∧ cls b = .other ∧ v = b) ∨
        (s.decState = .escaping ∧ unesc s.cfg.variant b = some v)) :
      ByteEffect s b
        (.ok, { s with dbuf := Memory.write s.dbuf s.decIdx v, decIdx := s.decIdx + 1, decState := .decoding })
  /-- A payload byte that does not fit. -/
  | overflows (v : Byte) (hs : s.decState ≠ .idle) (hcap : s.decIdx = s.cfg.decCap)
      (hv : (s.decState ≠ .escaping ∧ cls b = .other ∧ v = b) ∨
        (s.decState = .escaping ∧ unesc s.cfg.variant b = some v)) : ByteEffect s b (.overflow, s)
  /-- A second byte that is none. -/
  | bad (hs : s.decState = .escaping) (hb : unesc s.cfg.variant b = none) : ByteEffect s b (.badEscape, s.dropFrame)

theorem State.decodeByte_effect (s : State) (b : Byte) : s.ByteEffect b (s.decodeByte b) := by
  unfold State.decodeByte
  split
  · rename_i hs
    split <;> rename_i hc
    · exact .opens hs (cls_eq_endMark.1 hc)
    · exact .ignored (.inl ⟨hs, by rw [cls_eq_escMark.1 hc]; decide⟩)
    · exact .ignored (.inl ⟨hs, (cls_eq_other.1 hc).1⟩)
  · rename_i hs
    split <;> rename_i hc
    · exact .ignored (.inr ⟨hs, cls_eq_endMark.1 hc⟩)
    · exact .escapes (.inl hs) (cls_eq_escMark.1 hc)
    · rw [State.appendThen_eq]
      split
      · exact .overflows b (by simp [hs]) ‹_› (.inl ⟨by simp [hs], hc, rfl⟩)
      · exact .appends b (by simp [hs]) ‹_› (.inl ⟨by simp [hs], hc, rfl⟩)
  · rename_i hs
    split <;> rename_i hc
    · exact .completes hs (cls_eq_endMark.1 hc)
    · exact .escapes (.inr hs) (cls_eq_escMark.1 hc)
    · rw [State.appendThen_eq]
      split
      · exact .overflows b (by simp [hs]) ‹_› (.inl ⟨by simp [hs], hc, rfl⟩)
      · exact .appends b (by simp [hs]) ‹_› (.inl ⟨by simp [hs], hc, rfl⟩)
  · rename_i hs
    split <;> rename_i hc
    · exact .bad hs hc
    · rename_i v
      rw [State.appendThen_eq]
      split
      · exact .overflows v (by simp [hs]) ‹_› (.inr ⟨hs, hc⟩)
      · exact .appends v (by simp [hs]) ‹_› (.inr ⟨hs, hc⟩)

/-- Decoding a byte touches nothing outside the Decoder (R61). -/
theorem State.decodeByte_frame (s : State) (b : Byte) :
    (s.decodeByte b).2 =
      { s with dbuf := (s.decodeByte b).2.dbuf, decIdx := (s.decodeByte b).2.decIdx
               decHasFrame := (s.decodeByte b).2.decHasFrame, decState := (s.decodeByte b).2.decState } := by
  generalize hr : s.decodeByte b = r
  cases hr ▸ s.decodeByte_effect b <;> rfl

/-- The same, one field after another. -/
@[simp] theorem State.decodeByte_fields (s : State) (b : Byte) :
    (s.decodeByte b).2.cfg = s.cfg ∧ (s.decodeByte b).2.encWidx = s.encWidx ∧ (s.decodeByte b).2.obuf = s.obuf ∧
      (s.decodeByte b).2.q = s.q ∧ (s.decodeByte b).2.scratch = s.scratch ∧ (s.decodeByte b).2.out = s.out ∧
      (s.decodeByte b).2.rx = s.rx ∧ (s.decodeByte b).2.recvPending = s.recvPending ∧
      (s.decodeByte b).2.resp = s.resp ∧ (s.decodeByte b).2.returned = s.returned ∧
      (s.decodeByte b).2.trace = s.trace ∧ (s.decodeByte b).2.hostIn = s.hostIn ∧
      (s.decodeByte b).2.recvIn = s.recvIn ∧ (s.decodeByte b).2.cancelReq = s.cancelReq ∧
      (s.decodeByte b).2.cancelIn = s.cancelIn ∧ (s.decodeByte b).2.rst = s.rst ∧
      (s.decodeByte b).2.freeGen = s.freeGen := by
  generalize hr : s.decodeByte b = r
  cases hr ▸ s.decodeByte_effect b <;> simp

/-- A queue never grows past its capacity by a push (R20, R78). -/
theorem pushByte_length_le {cap : Nat} {q : List Byte} (hcap : 1 ≤ cap) (h : q.length ≤ cap) (b : Byte) :
    (pushByte cap q b).length ≤ cap := by
  unfold pushByte
  split
  · simp; omega
  · simp; omega

theorem foldl_pushByte_length_le {cap : Nat} (hcap : 1 ≤ cap) (w : List Byte) {q : List Byte} (h : q.length ≤ cap) :
    (w.foldl (pushByte cap) q).length ≤ cap := by
  induction w generalizing q with
  | nil => exact h
  | cons b w ih => exact ih (pushByte_length_le hcap h b)

/-- A push adds at most one byte for each byte pushed. -/
theorem foldl_pushByte_length_le_add (cap : Nat) (w q : List Byte) :
    (w.foldl (pushByte cap) q).length ≤ q.length + w.length := by
  induction w generalizing q with
  | nil => simp
  | cons b w ih =>
    have : (pushByte cap q b).length ≤ q.length + 1 := by
      unfold pushByte
      split <;> simp
    have := ih (pushByte cap q b)
    simp only [List.foldl_cons, List.length_cons]
    omega

/-- A push that fits loses nothing (R78). -/
theorem foldl_pushByte_of_fits {cap : Nat} (w : List Byte) {q : List Byte} (h : q.length + w.length ≤ cap) :
    w.foldl (pushByte cap) q = q ++ w := by
  induction w generalizing q with
  | nil => simp
  | cons b w ih =>
    simp only [List.length_cons] at h
    have hne : q.length ≠ cap := by omega
    simp only [List.foldl_cons, pushByte, if_neg hne]
    rw [ih (by simp; omega)]
    simp

/-- Asking again changes nothing while a request is outstanding, and asks once otherwise (R83). -/
theorem State.requestRecv_eq (s : State) :
    s.requestRecv =
      { s with recvPending := true
               trace := s.trace ++ if s.recvPending then [] else [.recvRequest s.cfg.scratchSize] } := by
  unfold State.requestRecv
  split
  · rename_i h
    cases s
    simp_all
  · rfl

/-- What waiting on the transport port can come to (R83). -/
theorem State.recvPoll_cases (s : State) :
    (s.recvIn = [] ∧ s.recvPoll = .waiting s.requestRecv) ∨
      (∃ r, s.recvIn = .noData :: r ∧ s.recvPoll = .answered .noData (s.requestRecv.takeAnswer r)) ∨
      (∃ r, s.recvIn = .failure :: r ∧ s.recvPoll = .answered .failure (s.requestRecv.takeAnswer r)) ∨
      (∃ w r, s.recvIn = .data w :: r ∧ 1 ≤ w.length ∧ w.length ≤ s.cfg.scratchSize ∧
        s.recvPoll = .answered (.data w) ((s.requestRecv.takeAnswer r).fillScratch w)) ∨
      (∃ w r, s.recvIn = .data w :: r ∧ ¬(1 ≤ w.length ∧ w.length ≤ s.cfg.scratchSize) ∧ s.recvPoll = .illegal) := by
  have hq : s.requestRecv.recvIn = s.recvIn := by simp [State.requestRecv_eq]
  have hc : s.requestRecv.cfg = s.cfg := by simp [State.requestRecv_eq]
  unfold State.recvPoll
  rcases hr : s.recvIn with _ | ⟨a, r⟩
  · simp [hq, hr]
  · cases a with
    | noData => simp [hq, hr]
    | failure => simp [hq, hr]
    | data w =>
      by_cases h : 1 ≤ w.length ∧ w.length ≤ s.cfg.scratchSize
      · refine .inr (.inr (.inr (.inl ⟨w, r, rfl, h.1, h.2, ?_⟩)))
        simp [hq, hr, hc, h.1, h.2]
      · refine .inr (.inr (.inr (.inr ⟨w, r, rfl, h, ?_⟩)))
        simp only [hq, hr]
        rw [if_neg (by simpa [hc] using h)]

end Sys2Proof.Machine
end

