-- ==== Sys2Proof/Laws/Receiver.lean ====
section
/-! SUPPORT. The receive loop (R86): what one turn can do, that the work left shrinks with every turn, the equation that
unrolls one turn, and the induction over a run. -/

namespace Sys2Proof.Machine

/-- The state in which step B has put its request to the transport: the cancel request sampled and seen 0, and the
`recv` request made, or both done earlier and the request still unanswered (R88). -/
def State.asked (s : State) : State :=
  { s with recvPending := true
           cancelReq := if s.recvPending then s.cancelReq else s.cancelLevel
           cancelIn := if s.recvPending then s.cancelIn else s.cancelIn.tail
           trace := s.trace ++ if s.recvPending then []
             else [.cancelSampled s.cancelLevel, .recvRequest s.cfg.scratchSize] }

@[simp] theorem State.asked_fields (s : State) :
    s.asked.cfg = s.cfg ∧ s.asked.encWidx = s.encWidx ∧ s.asked.obuf = s.obuf ∧ s.asked.decIdx = s.decIdx ∧
      s.asked.decHasFrame = s.decHasFrame ∧ s.asked.decState = s.decState ∧ s.asked.dbuf = s.dbuf ∧ s.asked.q = s.q ∧
      s.asked.scratch = s.scratch ∧ s.asked.out = s.out ∧ s.asked.rx = s.rx ∧ s.asked.recvPending = true ∧
      s.asked.resp = s.resp ∧ s.asked.returned = s.returned ∧ s.asked.hostIn = s.hostIn ∧
      s.asked.recvIn = s.recvIn ∧ s.asked.rst = s.rst ∧ s.asked.freeGen = s.freeGen :=
  by and_intros <;> rfl

/-- A request already outstanding leaves nothing to ask. -/
theorem State.asked_of_pending {s : State} (h : s.recvPending = true) : s.asked = s := by
  cases s
  simp_all [State.asked]

/-- Everything one turn of the loop can do (R86, R87, R88, R90), guards included. -/
inductive TurnEffect (c : Nat) (s : State) : Turn → Prop where
  /-- Step A, the frame does not fit. -/
  | tooSmall (hf : s.decHasFrame = true) (hc : c < s.decIdx) :
      TurnEffect c s (.returned (s.decoderReset.respond .bufferTooSmall .none))
  /-- Step A, the frame is delivered. -/
  | delivers (hf : s.decHasFrame = true) (hc : s.decIdx ≤ c) :
      TurnEffect c s
        (.returned
          (({ s with out := Memory.writeSeq s.out 0 s.dbufLive }).decoderReset.respond .ok (.payloadLength s.decIdx)))
  /-- Step B, the cancel request is seen. -/
  | cancelled (hf : s.decHasFrame = false) (hq : s.q = []) (hp : s.recvPending = false) (hl : s.cancelLevel = true) :
      TurnEffect c s (.returned (s.afterCancelSample.respond .cancelled .none))
  /-- Step B, no answer yet. -/
  | waits (hf : s.decHasFrame = false) (hq : s.q = []) (hl : s.recvPending = true ∨ s.cancelLevel = false)
      (hr : s.recvIn = []) : TurnEffect c s (.waits s.asked)
  /-- Step B, the transport failed. -/
  | fails (hf : s.decHasFrame = false) (hq : s.q = []) (hl : s.recvPending = true ∨ s.cancelLevel = false)
      (r : List RecvAnswer) (hr : s.recvIn = .failure :: r) :
      TurnEffect c s (.returned ((s.asked.takeAnswer r).respond .transportError .none))
  /-- Step B, no data: retried. -/
  | retries (hf : s.decHasFrame = false) (hq : s.q = []) (hl : s.recvPending = true ∨ s.cancelLevel = false)
      (r : List RecvAnswer) (hr : s.recvIn = .noData :: r) : TurnEffect c s (.again (s.asked.takeAnswer r))
  /-- Step B, data: through `SCRATCH` into the queue. -/
  | refills (hf : s.decHasFrame = false) (hq : s.q = []) (hl : s.recvPending = true ∨ s.cancelLevel = false)
      (w : List Byte) (r : List RecvAnswer) (hr : s.recvIn = .data w :: r) (hw1 : 1 ≤ w.length)
      (hw2 : w.length ≤ s.cfg.scratchSize) :
      TurnEffect c s (.again (((s.asked.takeAnswer r).fillScratch w).queuePush w))
  /-- Step B, an answer outside the transport's obligation. -/
  | refuses (hf : s.decHasFrame = false) (hq : s.q = []) (hl : s.recvPending = true ∨ s.cancelLevel = false)
      (w : List Byte) (r : List RecvAnswer) (hr : s.recvIn = .data w :: r)
      (hw : ¬(1 ≤ w.length ∧ w.length ≤ s.cfg.scratchSize)) : TurnEffect c s (.refuses .recvAnswerOutOfRange)
  /-- Step C, a byte decoded. -/
  | decodes (hf : s.decHasFrame = false) (b : Byte) (r : List Byte) (hq : s.q = b :: r) (s' : State)
      (hd : (s.setQueue r).decodeByte b = (.ok, s')) : TurnEffect c s (.again s')
  /-- Step C, a bad escape swallowed. -/
  | swallows (hf : s.decHasFrame = false) (b : Byte) (r : List Byte) (hq : s.q = b :: r)
      (hd : (s.setQueue r).decodeByte b = (.badEscape, (s.setQueue r).dropFrame)) :
      TurnEffect c s (.again (s.setQueue r).dropFrame.emitBadEscape)
  /-- Step C, the frame is longer than `DBUF`. -/
  | overflows (hf : s.decHasFrame = false) (b : Byte) (r : List Byte) (hq : s.q = b :: r)
      (hd : (s.setQueue r).decodeByte b = (.overflow, s.setQueue r)) :
      TurnEffect c s (.returned ((s.setQueue r).decoderReset.respond .bufferTooSmall .none))

/-- What `SCRATCH[0 .. |w|)` holds after an answer is what is pushed (R86). -/
@[simp] theorem State.pushScratch_fillScratch (s : State) (w : List Byte) :
    (s.fillScratch w).pushScratch w.length = (s.fillScratch w).queuePush w := by
  rw [State.pushScratch, State.bytesBelow_of_writeSeq rfl]

/-- The request half of step B, whether it is made now or was made before. -/
theorem refill_eq {s : State} (hl : s.recvPending = true ∨ s.cancelLevel = false) :
    refill s = refillFrom (if s.recvPending then s else s.afterCancelSample) ∧
      (if s.recvPending then s else s.afterCancelSample).requestRecv = s.asked := by
  by_cases hp : s.recvPending = true
  · refine ⟨by simp [refill, hp], ?_⟩
    cases s
    simp_all [State.requestRecv_eq, State.asked]
  · have hp : s.recvPending = false := by simpa using hp
    have hl : s.cancelLevel = false := by simpa [hp] using hl
    refine ⟨by simp [refill, hp, hl], ?_⟩
    simp [State.requestRecv_eq, State.asked, hp, State.afterCancelSample]

theorem refill_effect {c : Nat} {s : State} (hf : s.decHasFrame = false) (hq : s.q = [])
    (hl : s.recvPending = true ∨ s.cancelLevel = false) : TurnEffect c s (refill s) := by
  obtain ⟨e, ea⟩ := refill_eq hl
  rw [e]
  have hr1 : (if s.recvPending then s else s.afterCancelSample).recvIn = s.recvIn := by split <;> simp
  have hc1 : (if s.recvPending then s else s.afterCancelSample).cfg = s.cfg := by split <;> simp
  unfold refillFrom
  rcases (if s.recvPending then s else s.afterCancelSample).recvPoll_cases with
    ⟨h, e⟩ | ⟨r, h, e⟩ | ⟨r, h, e⟩ | ⟨w, r, h, h1, h2, e⟩ | ⟨w, r, h, h1, e⟩ <;>
    rw [e] <;> rw [hr1] at h <;> (try rw [ea])
  · exact .waits hf hq hl h
  · exact .retries hf hq hl r h
  · exact .fails hf hq hl r h
  · simpa using TurnEffect.refills hf hq hl w r h h1 (hc1 ▸ h2)
  · exact .refuses hf hq hl w r h (hc1 ▸ h1)

theorem turn_effect (c : Nat) (s : State) : TurnEffect c s (turn c s) := by
  unfold turn
  split
  · rename_i hf
    unfold deliver
    by_cases hc : c < s.decIdx
    · rw [if_pos (by simpa using hc)]
      exact .tooSmall hf hc
    · rw [if_neg (by simpa using hc)]
      exact .delivers hf (by omega)
  · rename_i hf
    have hf : s.decHasFrame = false := by simpa using hf
    unfold State.queuePop
    rcases hq : s.q with _ | ⟨b, r⟩
    · simp only
      by_cases hl : s.recvPending = true ∨ s.cancelLevel = false
      · exact refill_effect hf hq hl
      · simp only [not_or, Bool.not_eq_true, Bool.not_eq_false] at hl
        have e : refill s = .returned (s.afterCancelSample.respond .cancelled .none) := by simp [refill, hl.1, hl.2]
        rw [e]
        exact .cancelled hf hq hl.1 hl.2
    · simp only [drain]
      cases hd : (s.setQueue r).decodeByte b with
      | mk st t =>
        have h := hd ▸ (s.setQueue r).decodeByte_effect b
        cases h with
        | bad hs hb => exact .swallows hf b r hq hd
        | overflows _ hs hb => exact .overflows hf b r hq hd
        | _ => exact .decodes hf b r hq _ hd

/-- Step A, one case after the other (R87). -/
theorem turn_tooSmall {c : Nat} {s : State} (hf : s.decHasFrame = true) (hc : c < s.decIdx) :
    turn c s = .returned (s.decoderReset.respond .bufferTooSmall .none) := by
  have e := turn_effect c s
  generalize turn c s = x at e
  cases e <;> first | rfl | (exfalso; simp_all; done) | (exfalso; omega)

theorem turn_delivers {c : Nat} {s : State} (hf : s.decHasFrame = true) (hc : s.decIdx ≤ c) :
    turn c s =
      .returned
        (({ s with out := Memory.writeSeq s.out 0 s.dbufLive }).decoderReset.respond .ok (.payloadLength s.decIdx)) := by
  have e := turn_effect c s
  generalize turn c s = x at e
  cases e <;> first | rfl | (exfalso; simp_all; done) | (exfalso; omega)

/-- Step B, one case after the other (R88). -/
theorem turn_cancelled {c : Nat} {s : State} (hf : s.decHasFrame = false) (hq : s.q = []) (hp : s.recvPending = false)
    (hl : s.cancelLevel = true) : turn c s = .returned (s.afterCancelSample.respond .cancelled .none) := by
  have e := turn_effect c s
  generalize turn c s = x at e
  cases e <;> simp_all

theorem turn_waits {c : Nat} {s : State} (hf : s.decHasFrame = false) (hq : s.q = [])
    (hl : s.recvPending = true ∨ s.cancelLevel = false) (hr : s.recvIn = []) : turn c s = .waits s.asked := by
  have e := turn_effect c s
  generalize turn c s = x at e
  cases e <;> simp_all

theorem turn_fails {c : Nat} {s : State} (hf : s.decHasFrame = false) (hq : s.q = [])
    (hl : s.recvPending = true ∨ s.cancelLevel = false) {r : List RecvAnswer} (hr : s.recvIn = .failure :: r) :
    turn c s = .returned ((s.asked.takeAnswer r).respond .transportError .none) := by
  have e := turn_effect c s
  generalize turn c s = x at e
  cases e <;> simp_all

theorem turn_retries {c : Nat} {s : State} (hf : s.decHasFrame = false) (hq : s.q = [])
    (hl : s.recvPending = true ∨ s.cancelLevel = false) {r : List RecvAnswer} (hr : s.recvIn = .noData :: r) :
    turn c s = .again (s.asked.takeAnswer r) := by
  have e := turn_effect c s
  generalize turn c s = x at e
  cases e <;> simp_all

theorem turn_refills {c : Nat} {s : State} (hf : s.decHasFrame = false) (hq : s.q = [])
    (hl : s.recvPending = true ∨ s.cancelLevel = false) {w : List Byte} {r : List RecvAnswer}
    (hr : s.recvIn = .data w :: r) (hw1 : 1 ≤ w.length) (hw2 : w.length ≤ s.cfg.scratchSize) :
    turn c s = .again (((s.asked.takeAnswer r).fillScratch w).queuePush w) := by
  have e := turn_effect c s
  generalize turn c s = x at e
  cases e <;> simp_all

theorem turn_refuses {c : Nat} {s : State} (hf : s.decHasFrame = false) (hq : s.q = [])
    (hl : s.recvPending = true ∨ s.cancelLevel = false) {w : List Byte} {r : List RecvAnswer}
    (hr : s.recvIn = .data w :: r) (hw : ¬(1 ≤ w.length ∧ w.length ≤ s.cfg.scratchSize)) :
    turn c s = .refuses .recvAnswerOutOfRange := by
  have e := turn_effect c s
  generalize turn c s = x at e
  cases e
  case refills w' r' hr' h1 h2 =>
    cases hr.symm.trans hr'
    exact absurd ⟨h1, h2⟩ hw
  all_goals simp_all

/-- Step C (R90). -/
theorem turn_drains {c : Nat} {s : State} {b : Byte} {r : List Byte} (hf : s.decHasFrame = false) (hq : s.q = b :: r) :
    turn c s = drain b (s.setQueue r) := by
  simp [turn, hf, State.queuePop, hq]

/-- What no turn of the loop touches: the parameters, the Encoder, the host's port, the reset input (R85). -/
theorem turn_frame {c : Nat} {s s' : State}
    (h : turn c s = .returned s' ∨ turn c s = .waits s' ∨ turn c s = .again s') :
    s'.cfg = s.cfg ∧ s'.encWidx = s.encWidx ∧ s'.obuf = s.obuf ∧ s'.hostIn = s.hostIn ∧ s'.rst = s.rst ∧
      s'.freeGen = s.freeGen ∧ s'.returned = s.returned := by
  have he := turn_effect c s
  rcases h with h | h | h <;> rw [h] at he <;> cases he
  case decodes hf b r hq hd =>
    have := (s.setQueue r).decodeByte_fields b
    simp_all
  all_goals simp

/-- Every turn that is followed by another leaves less work (R92: the iterations between two requests are bounded). -/
theorem turn_work {c : Nat} {s s' : State} (h : turn c s = .again s') : s'.loopWork < s.loopWork := by
  have he := turn_effect c s
  rw [h] at he
  cases he with
  | retries hf hq hl r hr => simp [State.loopWork, hr, hq, answerWork]
  | refills hf hq hl w r hr h1 h2 =>
    have := foldl_pushByte_length_le_add s.cfg.qCap w []
    simp [State.loopWork, hr, hq, answerWork] at this ⊢
    omega
  | decodes hf b r hq _ hd =>
    have := (s.setQueue r).decodeByte_fields b
    simp_all [State.loopWork]
  | swallows hf b r hq hd => simp [State.loopWork, hq]

/-- More fuel than the work left changes nothing. -/
theorem loop_fuel {c n : Nat} {s : State} (h : s.loopWork ≤ n) : loop c n s = loop c s.loopWork s := by
  suffices H : ∀ k m s, State.loopWork s ≤ k → s.loopWork ≤ m → loop c k s = loop c m s from H _ _ _ h le_rfl
  intro k
  induction k with
  | zero =>
    intro m s hk
    simp [State.loopWork] at hk
  | succ k ih =>
    intro m s hk hm
    cases m with
    | zero => simp [State.loopWork] at hm
    | succ m =>
      simp only [loop]
      cases ht : turn c s with
      | again s' =>
        have := turn_work ht
        exact ih m s' (by omega) (by omega)
      | returned s' => rfl
      | waits s' => rfl
      | refuses r => rfl

/-- One turn of a run unrolled (R86). -/
theorem runReceive_eq (c : Nat) (s : State) :
    runReceive c s =
      match turn c s with
      | .returned s' => .next s'
      | .waits s'    => .next s'
      | .again s'    => runReceive c s'
      | .refuses r   => .refused r := by
  conv => lhs; rw [runReceive, State.loopWork, loop]
  cases ht : turn c s with
  | again s' =>
    have := turn_work ht
    simp only [runReceive]
    exact loop_fuel (by simp only [State.loopWork] at this ⊢; omega)
  | returned s' => rfl
  | waits s' => rfl
  | refuses r => rfl

theorem runReceive_again {c : Nat} {s s' : State} (h : turn c s = .again s') : runReceive c s = runReceive c s' := by
  rw [runReceive_eq, h]

/-- Induction over a run of the loop: a property of a state and the outcome of the run from it holds if it holds where
the command returns, waits or has no step, and each turn carries it back. -/
theorem runReceive_induction {c : Nat} {P : State → Host.Outcome State Fault Refusal → Prop}
    (returned : ∀ s s', turn c s = .returned s' → P s (.next s'))
    (waits : ∀ s s', turn c s = .waits s' → P s (.next s'))
    (refuses : ∀ s r, turn c s = .refuses r → P s (.refused r))
    (again : ∀ s s' o, turn c s = .again s' → P s' o → P s o) (s : State) : P s (runReceive c s) := by
  induction hn : s.loopWork using Nat.strong_induction_on generalizing s with
  | _ n ih =>
    cases ht : turn c s with
    | returned s' =>
      rw [runReceive_eq, ht]
      exact returned s s' ht
    | waits s' =>
      rw [runReceive_eq, ht]
      exact waits s s' ht
    | again s' =>
      rw [runReceive_again ht]
      exact again s s' _ ht (ih _ (hn ▸ turn_work ht) s' rfl)
    | refuses r =>
      rw [runReceive_eq, ht]
      exact refuses s r ht

/-- An invariant of the loop's turns is one of the run. -/
theorem runReceive_keeps {c : Nat} {Q : State → Prop}
    (returned : ∀ s s', Q s → turn c s = .returned s' → Q s')
    (waits : ∀ s s', Q s → turn c s = .waits s' → Q s')
    (again : ∀ s s', Q s → turn c s = .again s' → Q s') {s t : State} (hs : Q s)
    (h : runReceive c s = .next t) : Q t := by
  have H := runReceive_induction (c := c) (P := fun s o => Q s → ∀ t, o = .next t → Q t)
    (fun s s' ht hs t e => by cases e; exact returned s s' hs ht)
    (fun s s' ht hs t e => by cases e; exact waits s s' hs ht)
    (fun s r ht hs t e => by cases e)
    (fun s s' o ht ih hs => ih (again s s' hs ht)) s
  exact H hs t h

/-- What one turn shows of itself: requests, samples and bad-escape events, no response but the one it returns. -/
theorem turn_observes (c : Nat) (s : State) :
    ∃ evs : List Event, (∀ r, Event.response r ∉ evs) ∧
      match turn c s with
      | .returned t => ∃ st v, t.rx = none ∧ t.resp = some { status := st, value := v } ∧
          t.trace = s.trace ++ evs ++ [.response { status := st, value := v }] ∧
          st ∈ [Status.ok, .bufferTooSmall, .transportError, .cancelled] ∧ (st ≠ .ok → v = .none) ∧
          ∀ n, v ≠ .frameLength n
      | .waits t    => t.rx = s.rx ∧ t.resp = s.resp ∧ t.trace = s.trace ++ evs
      | .again t    => t.rx = s.rx ∧ t.resp = s.resp ∧ t.trace = s.trace ++ evs
      | .refuses _  => True := by
  have asked : ∀ r, Event.response r ∉ (if s.recvPending then []
      else [Event.cancelSampled s.cancelLevel, .recvRequest s.cfg.scratchSize]) := by
    intro r
    split <;> simp
  have e := turn_effect c s
  generalize turn c s = x at e
  cases e
  case tooSmall => exact ⟨[], by simp, _, _, rfl, rfl, by simp, by simp, by simp, by simp⟩
  case delivers => exact ⟨[], by simp, _, _, rfl, rfl, by simp, by simp, by simp, by simp⟩
  case cancelled =>
    exact ⟨[.cancelSampled s.cancelLevel], by simp, _, _, rfl, rfl, by simp [State.afterCancelSample], by simp,
      by simp, by simp⟩
  case waits => exact ⟨_, asked, by simp, by simp, rfl⟩
  case fails => exact ⟨_, asked, _, _, rfl, rfl, by simp [State.asked], by simp, by simp, by simp⟩
  case retries => exact ⟨_, asked, by simp, by simp, by simp [State.asked]⟩
  case refills => exact ⟨_, asked, by simp, by simp, by simp [State.asked]⟩
  case refuses => exact ⟨[], by simp, trivial⟩
  case decodes b r _ _ hd =>
    have := (s.setQueue r).decodeByte_fields b
    rw [hd] at this
    exact ⟨[], by simp, by simp_all⟩
  case swallows => exact ⟨[.badEscape], by simp, by simp, by simp, by simp⟩
  case overflows => exact ⟨[], by simp, _, _, rfl, rfl, by simp, by simp, by simp, by simp⟩

/-- What a run of the loop shows of itself: it returns with one response at the end, or waits and has given none
(R86, R92, R101). -/
theorem runReceive_observes {c : Nat} {s t : State} (h : runReceive c s = .next t) :
    ∃ evs : List Event, (∀ r, Event.response r ∉ evs) ∧
      ((t.rx = s.rx ∧ t.resp = s.resp ∧ t.trace = s.trace ++ evs) ∨
        ∃ st v, t.rx = none ∧ t.resp = some { status := st, value := v } ∧
          t.trace = s.trace ++ evs ++ [.response { status := st, value := v }] ∧
          st ∈ [Status.ok, .bufferTooSmall, .transportError, .cancelled] ∧ (st ≠ .ok → v = .none) ∧
          ∀ n, v ≠ .frameLength n) := by
  refine runReceive_induction (c := c) (P := fun s o => ∀ t, o = .next t → ∃ evs : List Event,
    (∀ r, Event.response r ∉ evs) ∧
      ((t.rx = s.rx ∧ t.resp = s.resp ∧ t.trace = s.trace ++ evs) ∨
        ∃ st v, t.rx = none ∧ t.resp = some { status := st, value := v } ∧
          t.trace = s.trace ++ evs ++ [.response { status := st, value := v }] ∧
          st ∈ [Status.ok, .bufferTooSmall, .transportError, .cancelled] ∧ (st ≠ .ok → v = .none) ∧
          ∀ n, v ≠ .frameLength n)) ?_ ?_ ?_ ?_ s t h
  · intro a b ht t e
    cases e
    obtain ⟨evs, hn, h⟩ := turn_observes c a
    rw [ht] at h
    exact ⟨evs, hn, .inr h⟩
  · intro a b ht t e
    cases e
    obtain ⟨evs, hn, h⟩ := turn_observes c a
    rw [ht] at h
    exact ⟨evs, hn, .inl h⟩
  · intro a r _ t e
    cases e
  · intro a b o ht ih t e
    obtain ⟨evs, hn, h⟩ := turn_observes c a
    rw [ht] at h
    obtain ⟨h1, h2, h3⟩ := h
    obtain ⟨evs', hn', h'⟩ := ih t e
    rw [h1, h2, h3] at h'
    refine ⟨evs ++ evs', ?_, by simpa only [List.append_assoc] using h'⟩
    intro r hr
    exact (List.mem_append.mp hr).elim (hn r) (hn' r)

/-- What a run of the loop never touches (R85). -/
theorem runReceive_frame {c : Nat} {s t : State} (h : runReceive c s = .next t) :
    t.cfg = s.cfg ∧ t.encWidx = s.encWidx ∧ t.obuf = s.obuf ∧ t.hostIn = s.hostIn ∧ t.rst = s.rst ∧
      t.freeGen = s.freeGen ∧ t.returned = s.returned := by
  refine runReceive_keeps (c := c) (s := s) (t := t)
    (Q := fun x => x.cfg = s.cfg ∧ x.encWidx = s.encWidx ∧ x.obuf = s.obuf ∧ x.hostIn = s.hostIn ∧ x.rst = s.rst ∧
      x.freeGen = s.freeGen ∧ x.returned = s.returned) ?_ ?_ ?_ (by simp) h
  · intro a b ha ht
    have := turn_frame (.inl ht)
    simp_all
  · intro a b ha ht
    have := turn_frame (.inr (.inl ht))
    simp_all
  · intro a b ha ht
    have := turn_frame (.inr (.inr ht))
    simp_all

end Sys2Proof.Machine
end

