-- ==== Sys2Proof/Laws/Decoder.lean ====
section
/-! SUPPORT. The laws of the Decoder: an accepted byte, a pair, the invariants of R74, and a run of bytes that are all
answered `Ok`, down to the bytes of one frame. -/

namespace Sys2Proof.Machine

/-- `DEC_BYTE` where it is accepted (R61, R63). -/
theorem feed_eq {s : State} (b : Byte) (h : s.decHasFrame = false) :
    feed b s = .next ((s.decodeByte b).2.respond (s.decodeByte b).1 .none) := by
  simp [feed, State.held, h]

/-- `DEC_BYTE` where it is held (R63). -/
theorem feed_held {s : State} (b : Byte) (h : s.decHasFrame = true) : feed b s = .refused .heldWhileFramePending := by
  simp [feed, State.held, h]

/-- Only `END` completes a frame (R66). -/
theorem State.decodeByte_not_ready {s : State} {b : Byte} (h : s.decHasFrame = false) (hb : b ≠ 0xC0#8) :
    (s.decodeByte b).2.decHasFrame = false := by
  have e := s.decodeByte_effect b
  generalize s.decodeByte b = r at e
  cases e <;> simp_all

/-- A pair where its first byte is accepted: the second is accepted too, for `ESC` completes no frame (R46, R66). -/
theorem feedPair_eq {s : State} (c : Byte) (h : s.decHasFrame = false) :
    feedPair bEsc c s =
      feed c ((s.decodeByte bEsc).2.respond (s.decodeByte bEsc).1 .none) ∧
    ((s.decodeByte bEsc).2.respond (s.decodeByte bEsc).1 .none).decHasFrame = false := by
  refine ⟨by simp only [feedPair, feed_eq _ h], ?_⟩
  simpa using State.decodeByte_not_ready (b := bEsc) h (by decide)

/-- The invariants speak of the decoder's registers only (R74). -/
theorem State.DecoderInv.congr {s t : State} (hi : s.DecoderInv)
    (h : t.cfg = s.cfg ∧ t.decIdx = s.decIdx ∧ t.decHasFrame = s.decHasFrame ∧ t.decState = s.decState) :
    t.DecoderInv := by
  obtain ⟨a, b, c, d⟩ := h
  obtain ⟨h1, h2, h3, h4, h5, h6⟩ := hi
  constructor <;> simp_all

/-- The reset state of the Decoder meets them (R73, R74). -/
theorem State.DecoderInv.of_decoderReset (s : State) : s.decoderReset.DecoderInv := by constructor <;> simp

/-- An accepted byte keeps them (R74). -/
theorem State.DecoderInv.decodeByte {s : State} (b : Byte) (hi : s.DecoderInv) (h : s.decHasFrame = false) :
    (s.decodeByte b).2.DecoderInv := by
  have e := s.decodeByte_effect b
  obtain ⟨h1, h2, h3, h4, h5, h6⟩ := hi
  generalize s.decodeByte b = r at e
  cases e <;> constructor <;> simp_all
  all_goals omega

/-- Decoding reads and writes the decoder only, so it goes past a response given before (R61). -/
theorem State.decodeByte_respond (s : State) (st : Status) (v : RespValue) (b : Byte) :
    (s.respond st v).decodeByte b = ((s.decodeByte b).1, (s.decodeByte b).2.respond st v) := by
  unfold State.decodeByte
  simp only [State.respond_fields, State.appendThen_eq]
  cases s.decState <;> simp only <;> split <;> (try split) <;> rfl

/-- And past a change of the queue. -/
theorem State.decodeByte_setQueue (s : State) (q : List Byte) (b : Byte) :
    (s.setQueue q).decodeByte b = ((s.decodeByte b).1, (s.decodeByte b).2.setQueue q) := by
  unfold State.decodeByte
  simp only [State.setQueue_fields, State.appendThen_eq]
  cases s.decState <;> simp only <;> split <;> (try split) <;> rfl

/-- What a byte does to the Decoder depends on the Decoder alone (R61). -/
theorem State.decodeByte_congr {s t : State} (hc : t.cfg = s.cfg) (hi : t.decIdx = s.decIdx)
    (hf : t.decHasFrame = s.decHasFrame) (hs : t.decState = s.decState) (hb : t.dbuf = s.dbuf) (b : Byte) :
    t.decodeByte b =
      ((s.decodeByte b).1,
        { t with dbuf := (s.decodeByte b).2.dbuf, decIdx := (s.decodeByte b).2.decIdx
                 decHasFrame := (s.decodeByte b).2.decHasFrame, decState := (s.decodeByte b).2.decState }) := by
  cases s
  cases t
  simp only at hc hi hf hs hb
  subst hc hi hf hs hb
  unfold State.decodeByte
  simp only [State.appendThen_eq]
  split <;> split <;> (try split) <;> rfl

/-- `Overflow` changes nothing (R68, R95). -/
theorem State.decodeByte_overflow {s : State} {b : Byte} (h : (s.decodeByte b).1 = .overflow) :
    s.decodeByte b = (.overflow, s) := by
  have e := s.decodeByte_effect b
  generalize s.decodeByte b = r at e h ⊢
  cases e <;> simp_all

/-- `s` goes to `t` by bytes `w` that are all accepted and answered `Ok`. -/
inductive Feeds : State → List Byte → State → Prop where
  | nil (s : State) : Feeds s [] s
  | cons {s t u : State} {b : Byte} {w : List Byte} (hf : s.decHasFrame = false) (hd : s.decodeByte b = (.ok, t))
      (h : Feeds t w u) : Feeds s (b :: w) u

theorem Feeds.append {s t u : State} {w x : List Byte} (h : Feeds s w t) (h2 : Feeds t x u) : Feeds s (w ++ x) u := by
  induction h with
  | nil => exact h2
  | cons hf hd _ ih => exact .cons hf hd (ih h2)

/-- One payload byte as its escape sequence, while a frame is open and it fits (R65, R66, R67). -/
theorem Feeds.esc {s : State} {b : Byte} (hf : s.decHasFrame = false)
    (hs : s.decState = .frameOpen ∨ s.decState = .decoding) (hcap : s.decIdx < s.cfg.decCap) :
    Feeds s (esc s.cfg.variant b)
      { s with dbuf := Memory.write s.dbuf s.decIdx b, decIdx := s.decIdx + 1, decState := .decoding } := by
  have hne : s.decIdx ≠ s.cfg.decCap := by omega
  cases hb : escSecond s.cfg.variant b with
  | none =>
    rw [esc_of_none hb]
    have hc := cls_of_escSecond_none hb
    refine .cons hf ?_ (.nil _)
    rcases hs with hs | hs <;> simp [State.decodeByte, hs, hc, State.appendThen_eq, hne]
  | some x =>
    rw [esc_of_some hb]
    refine .cons (t := s.goto .escaping) hf ?_ (.cons (by simpa using hf) ?_ (.nil _))
    · rcases hs with hs | hs <;> simp [State.decodeByte, hs]
    · simp [State.decodeByte, State.appendThen_eq, unesc_of_escSecond hb, hne, State.goto]

/-- A nonempty payload that fits, escaped, while a frame is open. -/
theorem Feeds.escapeAll {p : List Byte} (hp : 1 ≤ p.length) {s : State} (hf : s.decHasFrame = false)
    (hs : s.decState = .frameOpen ∨ s.decState = .decoding) (hcap : s.decIdx + p.length ≤ s.cfg.decCap) :
    Feeds s (escapeAll s.cfg.variant p)
      { s with dbuf := Memory.writeSeq s.dbuf s.decIdx p, decIdx := s.decIdx + p.length, decState := .decoding } := by
  induction p generalizing s with
  | nil => simp at hp
  | cons b p ih =>
    simp only [List.length_cons] at hcap
    have h1 := Feeds.esc (b := b) hf hs (by omega)
    cases p with
    | nil => simpa using h1
    | cons c p =>
      have h2 := h1.append (ih (by simp) hf (.inr rfl) (by simp only; omega))
      have e : s.decIdx + 1 + (c :: p).length = s.decIdx + (b :: c :: p).length := by simp only [List.length_cons]; omega
      simpa only [escapeAll_cons, Memory.writeSeq_cons, e] using h2

/-- The bytes of one frame, from a Decoder that waits for one (R75). -/
theorem Feeds.frame {p : List Byte} (hp : 1 ≤ p.length) {s : State} (hf : s.decHasFrame = false)
    (hs : s.decState = .idle ∨ s.decState = .frameOpen) (hi : s.decIdx = 0) (hcap : p.length ≤ s.cfg.decCap) :
    Feeds s (frame s.cfg.variant p)
      { s with dbuf := Memory.writeSeq s.dbuf 0 p, decIdx := p.length, decState := .idle, decHasFrame := true } := by
  have h1 : Feeds s [bEnd] (s.goto .frameOpen) := by
    refine .cons hf ?_ (.nil _)
    rcases hs with hs | hs
    · simp [State.decodeByte, hs]
    · simp only [State.decodeByte, hs, cls_bEnd]
      cases s
      simp_all [State.goto]
  have h2 := Feeds.escapeAll hp (s := s.goto .frameOpen) (by simpa using hf) (.inl rfl) (by simpa [hi] using hcap)
  refine (h1.append h2).append (.cons (by simpa using hf) ?_ (.nil _))
  simp [State.decodeByte, State.setHasFrame, State.goto, hi]

/-- The Receiver decodes queued bytes that are all answered `Ok` (R90). -/
theorem Feeds.runReceive {s t : State} {w : List Byte} (h : Feeds s w t) (c : Nat) (rest : List Byte) :
    runReceive c (s.setQueue (w ++ rest)) = runReceive c (t.setQueue rest) := by
  induction h with
  | nil => rfl
  | cons hf hd _ ih =>
    rename_i s t u b w _
    rw [← ih]
    refine runReceive_again ?_
    have e := State.decodeByte_setQueue s (w ++ rest) b
    rw [hd] at e
    have h1 : (s.setQueue (b :: w ++ rest)).decHasFrame = false := by simpa using hf
    have h2 : (s.setQueue (b :: w ++ rest)).queuePop = some (b, s.setQueue (w ++ rest)) := rfl
    simp only [turn, h1, h2, drain, e, Bool.false_eq_true, if_false]

end Sys2Proof.Machine
end

