-- ==== Sys2Proof/Laws/Encoder.lean ====
section
/-! SUPPORT. The Encoder's operations, each said once: `ENCODE` by whether the frame fits, and the per-byte
micro-operation and its repetition in closed form. -/

namespace Sys2Proof.Machine

/-- `ENCODE`, whole: the response, `enc.widx` and `OBUF` (R54, R56). -/
theorem execEncode_eq (p : List Byte) (s : State) :
    execEncode p s =
      if s.cfg.encCap < frameLen s.cfg.variant p then .next (s.encoderStart.respond .overflow .none)
      else
        .next
          (({ s with encWidx := frameLen s.cfg.variant p
                     obuf := Memory.writeSeq Memory.unspecified 0 (frame s.cfg.variant p) }).respond .ok
            (.frameLength (frameLen s.cfg.variant p))) := by
  unfold execEncode
  by_cases h : s.cfg.encCap < frameLen s.cfg.variant p
  · simp [h, State.encoderOverflow_eq]
  · simp [h, State.emitSeq_eq, frame_length, State.encoderStart]

theorem State.emitSeq_append (s : State) (u w : List Byte) : s.emitSeq (u ++ w) = (s.emitSeq u).emitSeq w := by
  induction u generalizing s with
  | nil => rfl
  | cons a u ih => simp [State.emitSeq, ih]

/-- The per-byte micro-operation, whole (R57). -/
theorem State.encodeByte_eq (s : State) (b : Byte) :
    s.encodeByte b =
      if s.cfg.encCap < s.encWidx + (esc s.cfg.variant b).length + 1 then none
      else some (s.emitSeq (esc s.cfg.variant b)) := by
  simp [State.encodeByte]

/-- The raw-byte step, whole (R42, R57). -/
theorem rawStep_eq (b : Byte) (s : State) :
    rawStep b s =
      if s.cfg.encCap < s.encWidx + (esc s.cfg.variant b).length + 1 then .next (s.encoderStart.respond .overflow .none)
      else
        .next
          { s with obuf := Memory.writeSeq s.obuf s.encWidx (esc s.cfg.variant b)
                   encWidx := s.encWidx + (esc s.cfg.variant b).length } := by
  rw [rawStep, State.encodeByte_eq]
  split <;> rename_i h <;> split at h <;> simp_all [State.encoderOverflow_eq, State.emitSeq_eq]

/-- Only the `Ok(L)` of an `ENCODE` gives an attached sender anything to send (R60). -/
theorem State.toSend_eq_nil {s : State} (h : ∀ r n, s.resp = some r → r.value ≠ .frameLength n) : s.toSend = [] := by
  unfold State.toSend
  split
  · next hr => exact absurd rfl (h _ _ hr)
  · rfl

@[simp] theorem State.toSend_respond_frame (s : State) (n : Nat) :
    (s.respond .ok (.frameLength n)).toSend = s.bytesBelow .obuf n := rfl

end Sys2Proof.Machine
end

