-- ==== Sys2Proof/Laws/PerInstr.lean ====
section
/-! SUPPORT. Statements made per instruction. Family `CodeFits`: the code the encoder gives an instruction fits the width
its format has in opcode_table.json, so that no bit above the width is ever set. -/

namespace Sys2Proof.Laws.CodeFits

open Sys2Proof

/-- The instruction's code, where it has one, is below 2 to the width of its format. -/
def Statement (i : Instr) : Prop :=
  match Sys2Proof.encode i with
  | .coded fmt code _ => code.toNat < 2 ^ fmtWidth fmt
  | .call _           => True

/-- A code that is there and fits. -/
theorem of_code {i : Instr} {fmt : Fmt} {code : BitVec 16} {ops : Operands}
    (h : Sys2Proof.encode i = .coded fmt code ops) (hlt : Nat.blt code.toNat (2 ^ fmtWidth fmt) = true) :
    Statement i := by
  unfold Statement
  rw [h]
  simpa [Nat.blt_eq] using hlt

/-- A byte, widened, stays below 2^8. -/
theorem setWidth_byte_lt (b : Byte) : (b.setWidth 16).toNat < 2 ^ 8 := by
  have : b.toNat < 256 := b.isLt
  rw [BitVec.toNat_setWidth]
  omega

theorem wireEnd : Statement .wireEnd := of_code rfl rfl

theorem wireEsc : Statement .wireEsc := of_code rfl rfl

theorem wireData (b : Byte) : Statement (.wireData b) := setWidth_byte_lt b

theorem seqEscEnd : Statement .seqEscEnd := of_code rfl rfl

theorem seqEscEsc : Statement .seqEscEsc := of_code rfl rfl

theorem seqEsc11 : Statement .seqEsc11 := of_code rfl rfl

theorem seqEsc13 : Statement .seqEsc13 := of_code rfl rfl

theorem seqBad (s : Byte) : Statement (.seqBad s) := (0xDB#8 ++ s).isLt

theorem rawC0 : Statement .rawC0 := of_code rfl rfl

theorem rawDB : Statement .rawDB := of_code rfl rfl

theorem raw11 : Statement .raw11 := of_code rfl rfl

theorem raw13 : Statement .raw13 := of_code rfl rfl

theorem rawOther (b : Byte) : Statement (.rawOther b) := setWidth_byte_lt b

theorem encode (payload : List Byte) : Statement (.encode payload) := of_code rfl rfl

theorem decByte (b : Byte) : Statement (.decByte b) := of_code rfl rfl

theorem decHasFrame : Statement .decHasFrame := of_code rfl rfl

theorem decTakeFrame : Statement .decTakeFrame := of_code rfl rfl

theorem decReset : Statement .decReset := of_code rfl rfl

theorem rxReceiveFrame (capacity : Nat) : Statement (.rxReceiveFrame capacity) := of_code rfl rfl

theorem cmdReserved0 : Statement .cmdReserved0 := of_code rfl rfl

theorem cmdReserved7 : Statement .cmdReserved7 := of_code rfl rfl

theorem cmdReserved8F (x : BitVec 3) : Statement (.cmdReserved8F x) := by
  have h : ∀ x : BitVec 3, (0x8#16 ||| x.setWidth 16).toNat < 2 ^ 4 := by decide
  exact h x

theorem qPush (w : List Byte) : Statement (.qPush w) := trivial

theorem qPop : Statement .qPop := trivial

theorem qLen : Statement .qLen := trivial

theorem qReset : Statement .qReset := trivial

theorem recv : Statement .recv := trivial

theorem cancelSample : Statement .cancelSample := trivial

theorem evBadEscape : Statement .evBadEscape := trivial

theorem stOk : Statement .stOk := of_code rfl rfl

theorem stOverflow : Statement .stOverflow := of_code rfl rfl

theorem stBadEscape : Statement .stBadEscape := of_code rfl rfl

theorem stBufferTooSmall : Statement .stBufferTooSmall := of_code rfl rfl

theorem stTransportError : Statement .stTransportError := of_code rfl rfl

theorem stCancelled : Statement .stCancelled := of_code rfl rfl

theorem stNever67 (x : BitVec 1) : Statement (.stNever67 x) := by
  have h : ∀ x : BitVec 1, (0x6#16 ||| x.setWidth 16).toNat < 2 ^ 3 := by decide
  exact h x

theorem stateIdle : Statement .stateIdle := of_code rfl rfl

theorem stateFrameOpen : Statement .stateFrameOpen := of_code rfl rfl

theorem stateDecoding : Statement .stateDecoding := of_code rfl rfl

theorem stateEscaping : Statement .stateEscaping := of_code rfl rfl

end Sys2Proof.Laws.CodeFits
end

