-- ==== Sys2Proof/Tests/Slice0.lean ====
section
/-! SUPPORT. The package's own tests: the checks of WellFormed, the words of every row, the spec's vectors
(95_test_vectors.md) one step at a time, and a witness for the hypotheses of every statement. Every expected value is
written out from the spec's tables and vectors, not taken from the model. -/

namespace Sys2Proof.Tests

open Sys2Proof Sys2Proof.Machine Sys2Proof.Claims

/-- The parameters of the vectors: 16, 8, 8, 8, `LEN_W` 8, and a variant. -/
def cfgOf (v : Variant) : Config := { Config.atReset with variant := v }

/-- An instance with ports of two bits. -/
def tiny : Config := { variant := .standard, encCap := 3, decCap := 3, qCap := 3, scratchSize := 3, lenW := 2 }

/-- A Decoder in state `d` that has accumulated `w`, in an instance of variant `v`, everything else at reset. -/
def decAt (v : Variant) (d : DecState) (hf : Bool) (w : List Byte) : State :=
  { State.resetOf (cfgOf v) with decState := d, decHasFrame := hf, decIdx := w.length, dbuf := Memory.writeSeq [] 0 w }

/-- The reset state of a variant. -/
def fresh (v : Variant) : State := State.resetOf (cfgOf v)

/-- An Encoder of capacity `cap`, everything else at reset. -/
def encOf (v : Variant) (cap : Nat) : State := State.resetOf { cfgOf v with encCap := cap }

/-- A Decoder of capacity 3, as in the vectors V-D9 to V-D13. -/
def dec3 (d : DecState) (w : List Byte) : State :=
  { State.resetOf { cfgOf .standard with decCap := 3 } with
      decState := d, decIdx := w.length, dbuf := Memory.writeSeq [] 0 w }

/-- A queue of capacity 4 that holds `w`, as in the vectors V-Q1 to V-Q9. -/
def queue4 (w : List Byte) : State := (State.resetOf { cfgOf .standard with qCap := 4, scratchSize := 4 }).setQueue w

/-- The state after an instruction, none when it has no step. -/
def after (i : Instr) (s : State) : Option State :=
  match exec i s with
  | .next t    => some t
  | .fault _   => none
  | .refused _ => none

/-- The refusal an instruction ends in, none when it has a step. -/
def stop (i : Instr) (s : State) : Option Refusal :=
  match exec i s with
  | .next _    => none
  | .fault _   => none
  | .refused r => some r

/-- The Decoder as the vectors write it: `state/idx/has_frame` and `DBUF[0 .. idx)`, with the status answered. -/
structure DecView where
  status   : Option Status
  state    : DecState
  idx      : Nat
  hasFrame : Bool
  dbuf     : List Byte
deriving DecidableEq, Repr

def decView (t : State) : DecView := ⟨t.resp.map (·.status), t.decState, t.decIdx, t.decHasFrame, t.dbufLive⟩

/-- What a Receiver vector writes down: the response, `OUT[0 .. n)`, the Decoder and the queue at the end. -/
structure RxView where
  resp     : Option Response
  out      : List Byte
  state    : DecState
  idx      : Nat
  hasFrame : Bool
  q        : List Byte
deriving DecidableEq, Repr

def rxView (n : Nat) (t : State) : RxView :=
  ⟨t.resp, t.bytesBelow .out n, t.decState, t.decIdx, t.decHasFrame, t.q⟩

/-- A decoded word is the instruction. -/
def reads (fmt : Fmt) (code : BitVec 16) (i : Instr) : Bool :=
  decide (decode (cfgOf .threeWire) (.coded fmt code Operands.zero) = .instr i)

/-! ### WellFormed refuses -/

theorem test_wf_refuses_marker_is_no_data_byte : wfCheck (cfgOf .standard) (.wireData 0xC0#8) = some .dataByteIsMarker := by decide

theorem test_wf_refuses_row_11_is_not_in_standard : wfCheck (cfgOf .standard) .seqEsc11 = some .rowNotInVariant := by decide

theorem test_wf_refuses_dc_is_a_designated_second_byte : wfCheck (cfgOf .standard) (.seqBad 0xDC#8) = some .secondByteIsDesignated := by decide

theorem test_wf_refuses_reserved_raw_byte_is_not_other : wfCheck (cfgOf .threeWire) (.rawOther 0x13#8) = some .rawByteIsReserved := by decide

theorem test_wf_refuses_payload_of_4_bytes : wfCheck (tiny) (.encode [1#8, 2#8, 3#8, 4#8]) = some .payloadTooLong := by decide

theorem test_wf_refuses_capacity_4 : wfCheck (tiny) (.rxReceiveFrame 4) = some .capacityTooLarge := by decide

/-- The boundary of the last two checks: 3 is admitted (`LEN_W` = 2). -/
theorem test_wf_admits_3 :
    tiny.Valid ∧ wfCheck tiny (.encode [1#8, 2#8, 3#8]) = none ∧ wfCheck tiny (.rxReceiveFrame 3) = none := by decide

/-! ### The words of every row, bit by bit from R18, R40, R41, R45 to R49 and R52 -/

theorem test_words_of_wire_bytes :
    reads .wireByte 0b11000000#16 .wireEnd = true ∧ reads .wireByte 0b11011011#16 .wireEsc = true ∧
      reads .wireByte 0b00010001#16 (.wireData 0x11#8) = true ∧
      reads .wireByte 0b11111111#16 (.wireData 0xFF#8) = true := by decide

theorem test_words_of_wire_pairs :
    reads .wirePair 0b1101101111011100#16 .seqEscEnd = true ∧ reads .wirePair 0b1101101111011101#16 .seqEscEsc = true ∧
      reads .wirePair 0b1101101111011110#16 .seqEsc11 = true ∧ reads .wirePair 0b1101101111011111#16 .seqEsc13 = true ∧
      reads .wirePair 0b1101101111011011#16 (.seqBad 0xDB#8) = true := by decide

theorem test_words_of_raw_bytes :
    reads .rawByte 0b11000000#16 .rawC0 = true ∧ reads .rawByte 0b11011011#16 .rawDB = true ∧
      reads .rawByte 0b00010001#16 .raw11 = true ∧ reads .rawByte 0b00010011#16 .raw13 = true ∧
      reads .rawByte 0b00010010#16 (.rawOther 0x12#8) = true := by decide

/-- In `Standard` 0x11 is no row of the table and 0xDB 0xDE no sequence of it (R41, R43). -/
theorem test_words_in_standard :
    decode (cfgOf .standard) (.coded .rawByte 0x11#16 Operands.zero) = .instr (.rawOther 0x11#8) ∧
      decode (cfgOf .standard) (.coded .wirePair 0xDBDE#16 Operands.zero) = .instr (.seqBad 0xDE#8) := by decide

theorem test_words_of_commands :
    reads .cmd4 0b0001#16 (.encode []) = true ∧ reads .cmd4 0b0010#16 (.decByte 0#8) = true ∧
      reads .cmd4 0b0011#16 .decHasFrame = true ∧ reads .cmd4 0b0100#16 .decTakeFrame = true ∧
      reads .cmd4 0b0101#16 .decReset = true ∧ reads .cmd4 0b0110#16 (.rxReceiveFrame 0) = true := by decide

theorem test_words_of_reserved_commands :
    reads .cmd4 0b0000#16 .cmdReserved0 = true ∧ reads .cmd4 0b0111#16 .cmdReserved7 = true ∧
      reads .cmd4 0b1000#16 (.cmdReserved8F 0b000#3) = true ∧
      reads .cmd4 0b1101#16 (.cmdReserved8F 0b101#3) = true := by decide

theorem test_words_of_statuses :
    reads .status3 0b000#16 .stOk = true ∧ reads .status3 0b001#16 .stOverflow = true ∧
      reads .status3 0b010#16 .stBadEscape = true ∧ reads .status3 0b011#16 .stBufferTooSmall = true ∧
      reads .status3 0b100#16 .stTransportError = true ∧ reads .status3 0b101#16 .stCancelled = true ∧
      reads .status3 0b111#16 (.stNever67 0b1#1) = true := by decide

theorem test_words_of_states :
    reads .state2 0b00#16 .stateIdle = true ∧ reads .state2 0b01#16 .stateFrameOpen = true ∧
      reads .state2 0b10#16 .stateDecoding = true ∧ reads .state2 0b11#16 .stateEscaping = true := by decide

/-- The operations without a code, by their names (R50). -/
theorem test_internal_operations :
    decode (cfgOf .standard) (.call (.qPush [7#8])) = .instr (.qPush [7#8]) ∧
      decode (cfgOf .standard) (.call .qPop) = .instr .qPop ∧ decode (cfgOf .standard) (.call .qLen) = .instr .qLen ∧
      decode (cfgOf .standard) (.call .qReset) = .instr .qReset ∧
      decode (cfgOf .standard) (.call .recv) = .instr .recv ∧
      decode (cfgOf .standard) (.call .cancelSample) = .instr .cancelSample ∧
      decode (cfgOf .standard) (.call .evBadEscape) = .instr .evBadEscape := by decide

/-- The rejections of the decoder, each by its name. -/
theorem test_decode_rejects :
    decode (cfgOf .standard) (.coded .cmd4 0x10#16 Operands.zero) = .reject (.codeTooWide .cmd4) ∧
      decode (cfgOf .standard) (.coded .wireByte 0x100#16 Operands.zero) = .reject (.codeTooWide .wireByte) ∧
      decode (cfgOf .standard) (.coded .wirePair 0xC0DC#16 Operands.zero) = .reject .notAnEscapePair ∧
      decode (cfgOf .standard) (.coded .status3 0x8#16 Operands.zero) = .reject (.codeTooWide .status3) ∧
      decode (cfgOf .standard) (.coded .state2 0x4#16 Operands.zero) = .reject (.codeTooWide .state2) ∧
      decode (cfgOf .standard) (.coded .cmd4 0x6#16 { Operands.zero with capacity := 256 }) =
        .reject .capacityTooLarge := by decide

/-- The host's words, as whole bytes, and the placed word run by the next step. -/
theorem test_table_words :
    decodeTableWord 8 0xC0 = some .wireEnd ∧ decodeTableWord 16 0xDBDE = some .seqEsc11 ∧
      decodeTableWord 8 0x13 = some .raw13 ∧ decodeTableWord 8 0x5 = some .decReset ∧
      decodeTableWord 3 0x4 = some .stTransportError ∧ decodeTableWord 2 0x3 = some .stateEscaping := by decide

theorem test_placed_word_runs :
    step (State.reset.withFetchWord 8 0xC0) = exec .wireEnd State.reset ∧
      step (State.reset.withFetchWord 8 0x6) = exec (.rxReceiveFrame 0) State.reset := ⟨rfl, rfl⟩

/-! ### The escape table (V-T1 to V-T3) -/

theorem test_vt1 :
    [0xC0#8, 0xDB#8, 0x11#8, 0x13#8, 0x00#8, 0xDC#8].map (esc .threeWire) =
        [[0xDB#8, 0xDC#8], [0xDB#8, 0xDD#8], [0xDB#8, 0xDE#8], [0xDB#8, 0xDF#8], [0x00#8], [0xDC#8]] ∧
      [0xC0#8, 0xDB#8, 0x11#8, 0x13#8].map (esc .standard) =
        [[0xDB#8, 0xDC#8], [0xDB#8, 0xDD#8], [0x11#8], [0x13#8]] := by decide

theorem test_vt2 :
    [0xDC#8, 0xDD#8, 0xDE#8, 0xDF#8, 0xC0#8, 0x05#8].map (unesc .threeWire) =
        [some 0xC0#8, some 0xDB#8, some 0x11#8, some 0x13#8, none, none] ∧
      [0xDC#8, 0xDD#8, 0xDE#8, 0xDF#8].map (unesc .standard) = [some 0xC0#8, some 0xDB#8, none, none] := by decide

theorem test_vt3 :
    [0xC0#8, 0xDB#8, 0xDC#8, 0x11#8].map cls = [.endMark, .escMark, .other, .other] := by decide

/-! ### The Encoder (V-E7, V-E8, V-E12, V-E14) -/

theorem test_ve7 :
    (after (.encode [0x01#8, 0xC0#8, 0xDB#8, 0x11#8]) (encOf .threeWire 16)).map (fun t => (t.resp, t.obufLive)) =
      some (some { status := .ok, value := .frameLength 9 },
        [0xC0#8, 0x01#8, 0xDB#8, 0xDC#8, 0xDB#8, 0xDD#8, 0xDB#8, 0xDE#8, 0xC0#8]) := by decide

theorem test_ve12_one_short :
    (after (.encode [0xC0#8, 0xDB#8, 0xC0#8]) (encOf .standard 7)).map (fun t => (t.resp, t.encWidx)) =
      some (some { status := .overflow, value := .none }, 0) := by decide

/-- Two bytes of V-E5's frame by themselves: the escape is written where `enc.widx` stands. -/
theorem test_raw_rows_write_their_escape :
    (after .raw11 { encOf .threeWire 16 with encWidx := 1, obuf := [(0, 0xC0#8)] }).map (fun t => t.obufLive) =
        some [0xC0#8, 0xDB#8, 0xDE#8] ∧
      (after .raw13 { encOf .threeWire 16 with encWidx := 1, obuf := [(0, 0xC0#8)] }).map (fun t => t.obufLive) =
        some [0xC0#8, 0xDB#8, 0xDF#8] := by decide

theorem test_raw_rows_of_both_variants :
    (after .rawC0 { encOf .standard 16 with encWidx := 1, obuf := [(0, 0xC0#8)] }).map (fun t => t.obufLive) =
        some [0xC0#8, 0xDB#8, 0xDC#8] ∧
      (after .rawDB { encOf .standard 16 with encWidx := 1, obuf := [(0, 0xC0#8)] }).map (fun t => t.obufLive) =
        some [0xC0#8, 0xDB#8, 0xDD#8] ∧
      (after (.rawOther 0x11#8) { encOf .standard 16 with encWidx := 1, obuf := [(0, 0xC0#8)] }).map
          (fun t => t.obufLive) = some [0xC0#8, 0x11#8] := by decide

/-! ### The Decoder, one command at a time (the traces of S4, V-D7, V-D10, V-D12, V-D13, V-D15, V-D19, V-D20) -/

theorem test_s4_end_opens :
    (after .wireEnd (fresh .standard)).map decView = some ⟨some .ok, .frameOpen, 0, false, []⟩ := by decide

theorem test_s4_esc_arms :
    (after .wireEsc (decAt .standard .frameOpen false [])).map decView = some ⟨some .ok, .escaping, 0, false, []⟩ := by
  decide

theorem test_s4_pair :
    (after .seqEscEnd (decAt .standard .frameOpen false [])).map decView =
        some ⟨some .ok, .decoding, 1, false, [0xC0#8]⟩ ∧
      (after .seqEscEsc (decAt .standard .decoding false [0xC0#8])).map decView =
        some ⟨some .ok, .decoding, 2, false, [0xC0#8, 0xDB#8]⟩ := by decide

theorem test_s4_data :
    (after (.wireData 0xFF#8) (decAt .standard .decoding false [0xC0#8, 0xDB#8])).map decView =
      some ⟨some .ok, .decoding, 3, false, [0xC0#8, 0xDB#8, 0xFF#8]⟩ := by decide

theorem test_s4_end_completes :
    (after (.decByte 0xC0#8) (decAt .standard .decoding false [0xC0#8, 0xDB#8, 0xFF#8, 0x00#8])).map decView =
      some ⟨some .ok, .idle, 4, true, [0xC0#8, 0xDB#8, 0xFF#8, 0x00#8]⟩ := by decide

/-- V-D4's pairs in `ThreeWire`, and V-D7's in `Standard`. -/
theorem test_vd4_vd7 :
    (after .seqEsc11 (decAt .threeWire .decoding false [0x01#8])).map decView =
        some ⟨some .ok, .decoding, 2, false, [0x01#8, 0x11#8]⟩ ∧
      (after .seqEsc13 (decAt .threeWire .decoding false [0x11#8])).map decView =
        some ⟨some .ok, .decoding, 2, false, [0x11#8, 0x13#8]⟩ ∧
      (after (.seqBad 0xDE#8) (decAt .standard .decoding false [0x01#8])).map decView =
        some ⟨some .badEscape, .idle, 0, false, []⟩ := by decide

theorem test_vd10_overflow_changes_nothing :
    (after (.decByte 0x04#8) (dec3 .decoding [0x01#8, 0x02#8, 0x03#8])).map decView =
      some ⟨some .overflow, .decoding, 3, false, [0x01#8, 0x02#8, 0x03#8]⟩ := by decide

/-- V-D12 and V-D13: a full buffer in `Escaping`. -/
theorem test_vd12_vd13 :
    (after (.decByte 0xDC#8) (dec3 .escaping [0x01#8, 0x02#8, 0x03#8])).map decView =
        some ⟨some .overflow, .escaping, 3, false, [0x01#8, 0x02#8, 0x03#8]⟩ ∧
      (after (.decByte 0x05#8) (dec3 .escaping [0x01#8, 0x02#8, 0x03#8])).map decView =
        some ⟨some .badEscape, .idle, 0, false, []⟩ := by decide

theorem test_vd15_esc_esc :
    (after (.seqBad 0xDB#8) (decAt .standard .frameOpen false [])).map decView =
      some ⟨some .badEscape, .idle, 0, false, []⟩ := by decide

theorem test_vd19_reads :
    (after .decHasFrame (decAt .standard .idle true [0x01#8])).map (·.resp) =
        some (some { status := .ok, value := .bit true }) ∧
      (after .decTakeFrame (decAt .standard .idle true [0x01#8])).map (·.resp) =
        some (some { status := .ok, value := .bytes 1 [0x01#8] }) := by decide

theorem test_vd20_reset :
    (after .decReset (decAt .standard .idle true [0x01#8])).map decView = some ⟨some .ok, .idle, 0, false, []⟩ := by
  decide

theorem test_vd22_held :
    stop (.decByte 0xC0#8) (decAt .standard .idle true [0x01#8]) = some .heldWhileFramePending := by decide

/-- `MemWrite` then `MemRead`, and the transitions `dec.state <- X` (R11, R18). -/
theorem test_state_rows :
    (after .stateIdle (decAt .standard .decoding false [1#8])).map (·.decState) = some .idle ∧
      (after .stateFrameOpen (fresh .standard)).map (·.decState) = some .frameOpen ∧
      (after .stateDecoding (fresh .standard)).map (·.decState) = some .decoding ∧
      (after .stateEscaping (fresh .standard)).map (·.decState) = some .escaping := by decide

/-! ### The queue (V-Q3, V-Q4, V-Q6, V-Q7, V-Q8) -/

theorem test_vq3_vq4 :
    (after (.qPush [0x0A#8, 0x0B#8]) (queue4 [0x01#8, 0x02#8, 0x03#8])).map (·.q) =
        some [0x02#8, 0x03#8, 0x0A#8, 0x0B#8] ∧
      (after (.qPush [0x0A#8, 0x0B#8, 0x0C#8, 0x0D#8, 0x0E#8]) (queue4 [0x01#8])).map (·.q) =
        some [0x0B#8, 0x0C#8, 0x0D#8, 0x0E#8] := by decide

theorem test_vq6_vq7 :
    (after .qPop (queue4 [0xC0#8, 0x01#8])).map (fun t => (t.returned, t.q)) =
        some (some (.byte 0xC0#8), [0x01#8]) ∧
      stop .qPop (queue4 []) = some .popOfEmptyQueue := by decide

theorem test_vq1_vq8 :
    (after .qLen (queue4 [])).map (·.returned) = some (some (.count 0)) ∧
      (after .qReset (queue4 [0x01#8])).map (·.q) = some [] := by decide

/-! ### The Receiver and its ports (V-R1, V-R3, V-R4, V-R8, V-R10, V-R11, V-R12, V-R14) -/

/-- A Receiver with answers ahead. -/
def rxAt (answers : List RecvAnswer) : State := { fresh .standard with recvIn := answers }

theorem test_vr1 :
    (after (.rxReceiveFrame 8) (rxAt [.noData, .data [0xC0#8, 0x01#8, 0xC0#8, 0xC0#8, 0x02#8]])).map (rxView 1) =
      some ⟨some { status := .ok, value := .payloadLength 1 }, [0x01#8], .idle, 0, false, [0xC0#8, 0x02#8]⟩ := by decide

/-- One event, one request, one sample, in the order they happen. -/
theorem test_vr3_events :
    (after (.rxReceiveFrame 8)
        (rxAt [.data [0x00#8, 0xC0#8, 0xDB#8, 0x05#8, 0xC0#8, 0xC0#8, 0x07#8, 0xC0#8]])).map (·.trace) =
      some [.cancelSampled false, .recvRequest 8, .badEscape,
        .response { status := .ok, value := .payloadLength 1 }] := by decide

theorem test_vr4_vr8 :
    (after (.rxReceiveFrame 2)
        (rxAt [.data [0xC0#8, 0x01#8, 0x02#8, 0x03#8, 0xC0#8, 0xC0#8, 0x09#8, 0xC0#8]])).map (rxView 0) =
        some ⟨some { status := .bufferTooSmall, value := .none }, [], .idle, 0, false, [0xC0#8, 0x09#8, 0xC0#8]⟩ ∧
      (after (.rxReceiveFrame 8) (rxAt [.data [0xC0#8, 0x01#8], .failure])).map (rxView 0) =
        some ⟨some { status := .transportError, value := .none }, [], .decoding, 1, false, []⟩ := by decide

theorem test_vr10_vr12 :
    (after (.rxReceiveFrame 8) { fresh .standard with cancelReq := true }).map (·.trace) =
        some [.cancelSampled true, .response { status := .cancelled, value := .none }] ∧
      (after (.rxReceiveFrame 8) { rxAt [.noData, .noData] with cancelIn := [false, false, true] }).map (rxView 0) =
        some ⟨some { status := .cancelled, value := .none }, [], .idle, 0, false, []⟩ := by decide

theorem test_vr11_vr14 :
    (after (.rxReceiveFrame 8) { (fresh .standard).setQueue [0xC0#8, 0x01#8, 0xC0#8] with cancelReq := true }).map
        (·.trace) = some [.response { status := .ok, value := .payloadLength 1 }] ∧
      (after (.rxReceiveFrame 1) (decAt .standard .idle true [0x55#8])).map (rxView 1) =
        some ⟨some { status := .ok, value := .payloadLength 1 }, [0x55#8], .idle, 0, false, []⟩ := by decide

/-- R60: after an overflowed `ENCODE` the `Ok(1)` of a receive gives an attached sender nothing to send; the `Ok(L)` of
an `ENCODE` gives it the frame. -/
theorem test_only_encode_gives_something_to_send :
    (after (.rxReceiveFrame 8) ((decAt .standard .idle true [0x55#8]).encoderOverflow)).map
        (fun t => (t.resp, t.toSend)) = some (some { status := .ok, value := .payloadLength 1 }, []) ∧
      (after (.encode [0x01#8]) (encOf .standard 16)).map (·.toSend) = some [0xC0#8, 0x01#8, 0xC0#8] := by decide

/-- The answer to an outstanding request is taken with no sample and no second request, the cancel request at 1; an
answer one byte longer than `S` has no step (R83, R88, U5). -/
theorem test_outstanding_request :
    (after (.rxReceiveFrame 8)
        { fresh .standard with recvPending := true, cancelReq := true, recvIn := [.failure] }).map (·.trace) =
        some [.response { status := .transportError, value := .none }] ∧
      stop (.rxReceiveFrame 8) (rxAt [.data (List.replicate 9 7#8)]) = some .recvAnswerOutOfRange := by decide

theorem test_recv_and_cancel_sample :
    (after .recv (rxAt [.data [0x07#8]])).map (fun t => (t.returned, t.bytesBelow .scratch 1)) =
        some (some (.answer (.data [0x07#8])), [0x07#8]) ∧
      stop .recv (rxAt [.data []]) = some .recvAnswerOutOfRange ∧
      (after .cancelSample { fresh .standard with cancelReq := true }).map (·.returned) = some (some (.bit true)) ∧
      (after .evBadEscape (fresh .standard)).map (·.trace) = some [.badEscape] := by decide

/-! ### Status codes, reserved codes, reset -/

theorem test_status_rows :
    [Instr.stOk, .stOverflow, .stBadEscape, .stBufferTooSmall, .stTransportError, .stCancelled].map
        (fun i => (after i (fresh .standard)).bind fun t => t.resp.map fun r => statusCode r.status) =
      [some 0#3, some 1#3, some 2#3, some 3#3, some 4#3, some 5#3] := by decide

theorem test_rows_without_a_step :
    stop .cmdReserved0 (fresh .standard) = some (.reservedCommand 0x0#4) ∧
      stop .cmdReserved7 (fresh .standard) = some (.reservedCommand 0x7#4) ∧
      stop (.cmdReserved8F 0b010#3) (fresh .standard) = some (.reservedCommand 0xA#4) ∧
      stop (.stNever67 0b0#1) (fresh .standard) = some .statusNeverProduced := by decide

/-- Block reset in the middle of an escape sequence, a command waiting (R109, R110); that the request is withdrawn is the
model's choice (log entry 18). -/
theorem test_block_reset :
    (match step { decAt .standard .escaping false [0x01#8] with rst := true, rx := some 8, recvPending := true } with
      | .next t => some (decView t, t.rx, t.recvPending, t.rst)
      | _       => none) = some (⟨none, .idle, 0, false, []⟩, none, false, false) := by decide

/-! ### Witnesses: for each statement with hypotheses, a state and operands that meet all of them -/

/-- A machine with one transaction presented. -/
def offered (x : Xact) : State := { fresh .standard with hostIn := [x] }

theorem witness_block_reset : ({ fresh .standard with rst := true } : State).rst = true := by decide

theorem witness_step_runs :
    (fresh .standard).rst = false ∧ (fresh .standard).rx = none ∧ (fresh .standard).hostIn = [] := by decide

theorem witness_step_runs_instr :
    (offered (bare .cmd4 5#16)).rst = false ∧ (offered (bare .cmd4 5#16)).rx = none ∧
      (offered (bare .cmd4 5#16)).hostIn = bare .cmd4 5#16 :: [] ∧
      decode (offered (bare .cmd4 5#16)).cfg (bare .cmd4 5#16) = .instr .decReset := by decide

theorem witness_step_runs_reject :
    (offered (bare .cmd4 16#16)).rst = false ∧ (offered (bare .cmd4 16#16)).rx = none ∧
      (offered (bare .cmd4 16#16)).hostIn = bare .cmd4 16#16 :: [] ∧
      decode (offered (bare .cmd4 16#16)).cfg (bare .cmd4 16#16) = .reject (.codeTooWide .cmd4) := by decide

/-- A Receiver that waits for the transport. -/
def waiting (c : Nat) : State := { fresh .standard with rx := some c, recvPending := true }

theorem witness_running_receive :
    (waiting 8).rst = false ∧ (waiting 8).rx = some 8 ∧ step (waiting 8) = .next (waiting 8) := ⟨rfl, rfl, rfl⟩

theorem witness_placed_word :
    State.reset.cfg = Config.atReset ∧ decodeTableWord 8 0xC0 = some .wireEnd := by decide

theorem witness_decode_undoes_encode :
    WellFormed (cfgOf .standard) (.seqBad 0xDE#8) ∧ WellFormed (cfgOf .threeWire) .seqEsc11 ∧
      WellFormed (cfgOf .standard) (.rxReceiveFrame 255) ∧ WellFormed (cfgOf .standard) (.cmdReserved8F 7#3) := by decide

/-- A capacity that just fits its port beside a byte that the command does not name; the first code too wide, the first
capacity and the first payload too long. -/
theorem witness_decoded_is_well_formed :
    decode (cfgOf .standard) (.coded .cmd4 0x6#16 { Operands.zero with capacity := 255, byte := 9#8 }) =
        .instr (.rxReceiveFrame 255) ∧
      decode tiny (.call .qLen) = .instr .qLen ∧ 2 ^ fmtWidth .cmd4 ≤ (16#16 : BitVec 16).toNat ∧ 0xC0#8 ≠ 0xDB#8 ∧
      2 ^ tiny.lenW ≤ ({ Operands.zero with payload := [1#8, 2#8, 3#8, 4#8] } : Operands).payload.length ∧
      2 ^ tiny.lenW ≤ ({ Operands.zero with capacity := 4 } : Operands).capacity := by decide

theorem witness_reserved_codes :
    ((0x0#4 : BitVec 4) = 0x0#4 ∨ 0x7#4 ≤ (0x0#4 : BitVec 4)) ∧ ((0x7#4 : BitVec 4) = 0x0#4 ∨ 0x7#4 ≤ 0x7#4) ∧
      ((0xF#4 : BitVec 4) = 0x0#4 ∨ 0x7#4 ≤ 0xF#4) := by decide

theorem witness_escaped_pair : esc .threeWire 0x13#8 = [0xDB#8, 0xDF#8] := by decide

theorem witness_encode_exact_fit :
    [0x01#8, 0xC0#8, 0x03#8].length + reservedCount (encOf .standard 6).cfg.variant [0x01#8, 0xC0#8, 0x03#8] + 2 ≤
      (encOf .standard 6).cfg.encCap := by decide

theorem witness_encode_one_short :
    (encOf .standard 5).cfg.encCap <
      [0x01#8, 0xC0#8, 0x03#8].length + reservedCount (encOf .standard 5).cfg.variant [0x01#8, 0xC0#8, 0x03#8] + 2 := by
  decide

theorem witness_same_instance : (encOf .standard 6).cfg = ({ encOf .standard 6 with encWidx := 3 } : State).cfg := by
  decide

theorem witness_sender :
    exec (.encode []) (encOf .standard 1) = .next ((encOf .standard 1).encoderOverflow) ∧
      (after (.encode []) (encOf .standard 2)).isSome = true := ⟨rfl, rfl⟩

/-- The escape and a trailing `END` just fit, and just do not. -/
theorem witness_raw_byte :
    rawByteOf .rawC0 = some 0xC0#8 ∧
      (encOf .standard 3).encWidx + (esc (encOf .standard 3).cfg.variant 0xC0#8).length + 1 ≤
        (encOf .standard 3).cfg.encCap ∧
      (encOf .standard 2).cfg.encCap < (encOf .standard 2).encWidx +
        (esc (encOf .standard 2).cfg.variant 0xC0#8).length + 1 := by decide

theorem witness_dec_byte_in_idle :
    (fresh .standard).decHasFrame = false ∧ (fresh .standard).decState = .idle := by decide

theorem witness_dec_byte_in_frame_open :
    (decAt .standard .frameOpen false []).decHasFrame = false ∧
      (decAt .standard .frameOpen false []).decState = .frameOpen := by decide

theorem witness_dec_byte_in_decoding :
    (dec3 .decoding [1#8, 2#8, 3#8]).decHasFrame = false ∧ (dec3 .decoding [1#8, 2#8, 3#8]).decState = .decoding ∧
      (dec3 .decoding [1#8, 2#8, 3#8]).decIdx = (dec3 .decoding [1#8, 2#8, 3#8]).cfg.decCap := by decide

theorem witness_dec_byte_in_escaping :
    (dec3 .escaping [1#8, 2#8, 3#8]).decHasFrame = false ∧ (dec3 .escaping [1#8, 2#8, 3#8]).decState = .escaping ∧
      (dec3 .escaping [1#8, 2#8, 3#8]).decIdx = (dec3 .escaping [1#8, 2#8, 3#8]).cfg.decCap := by decide

theorem witness_held :
    (wireByteOf .wireEnd).isSome = true ∧ (secondByteOf .seqEscEnd).isSome = true ∧
      (decAt .standard .idle true [1#8]).decHasFrame = true ∧
      ({ decAt .standard .idle true [1#8] with rst := true } : State).rst = true := by decide

theorem witness_wire_byte : wireByteOf (.wireData 7#8) = some 7#8 ∧ (fresh .standard).decHasFrame = false := by decide

theorem witness_wire_pair :
    secondByteOf .seqEscEsc = some 0xDD#8 ∧ (fresh .standard).decHasFrame = false ∧
      (decAt .standard .frameOpen false []).decState = .frameOpen ∧
      (decAt .standard .frameOpen false []).decHasFrame = false ∧
      (decAt .standard .decoding false [1#8]).decState = .decoding := by decide

theorem witness_written_byte :
    0 < (decAt .standard .decoding false [1#8]).decIdx ∧
      Memory.read (decAt .standard .decoding false [1#8]).dbuf 0 = some 1#8 := by decide

/-- The invariants of R74, of a Decoder in `FrameOpen`, with a frame half-way, and with one pending. -/
theorem witness_decoder_invariant :
    (fresh .standard).DecoderInv ∧ (decAt .standard .frameOpen false []).DecoderInv ∧
      (decAt .standard .decoding false [1#8]).DecoderInv ∧ (decAt .standard .idle true [1#8]).DecoderInv := by
  and_intros <;> constructor <;> decide

theorem witness_decoder_invariant_is_kept :
    (encode (.decByte 7#8)).hostIssuable = true ∧
      (after (.decByte 7#8) (decAt .standard .decoding false [1#8])).isSome = true ∧
      (after (.rxReceiveFrame 8) (decAt .standard .idle true [1#8])).map (fun t => (t.rx, t.resp)) =
        some (none, some { status := .ok, value := .payloadLength 1 }) := by decide

theorem witness_round_trip :
    (fresh .standard).decHasFrame = false ∧ (fresh .standard).decState = .idle ∧
      1 ≤ (List.replicate 8 0xC0#8 : List Byte).length ∧
      (List.replicate 8 0xC0#8 : List Byte).length ≤ (fresh .standard).cfg.decCap := by decide

theorem witness_oversized :
    (dec3 .idle []).decHasFrame = false ∧ (dec3 .idle []).decState = .idle ∧
      [1#8, 2#8, 3#8].length = (dec3 .idle []).cfg.decCap ∧ 1 ≤ [1#8, 2#8, 3#8].length := by decide

theorem witness_oversized_invariant : (dec3 .idle []).DecoderInv := by constructor <;> decide

theorem witness_decode_of_encode :
    (fresh .standard).cfg = (decAt .standard .escaping false [9#8]).cfg ∧ 1 ≤ [0xDB#8].length ∧
      [0xDB#8].length ≤ (decAt .standard .escaping false [9#8]).cfg.decCap ∧
      (frame (fresh .standard).cfg.variant [0xDB#8]).length ≤ (fresh .standard).cfg.encCap := by decide

theorem witness_noise :
    (fresh .standard).decState = .idle ∧ (fresh .standard).decHasFrame = false ∧ (fresh .standard).decIdx = 0 ∧
      0xC0#8 ∉ [0x00#8, 0xDB#8, 0xDC#8] ∧ 1 ≤ [1#8].length ∧ [1#8].length ≤ (fresh .standard).cfg.decCap := by decide

/-- Ignored bytes without `END`, and a second payload that holds one. -/
theorem witness_shared_delimiter :
    1 ≤ [1#8].length ∧ [1#8].length ≤ (fresh .standard).cfg.decCap ∧ 0xC0#8 ∉ [2#8, 0xDB#8] ∧
      1 ≤ [0xC0#8].length ∧ [0xC0#8].length ≤ (fresh .standard).cfg.decCap := by decide

theorem witness_empty_frame :
    (fresh .standard).decState = .idle ∧ (fresh .standard).decHasFrame = false ∧ (fresh .standard).decIdx = 0 := by
  decide

theorem witness_push :
    1 ≤ (queue4 [1#8, 2#8, 3#8, 4#8]).cfg.qCap ∧
      (queue4 [1#8, 2#8, 3#8, 4#8]).q.length ≤ (queue4 [1#8, 2#8, 3#8, 4#8]).cfg.qCap := by decide

theorem witness_pop : (queue4 [1#8]).q = 1#8 :: [] ∧ (queue4 []).q = [] := by decide

theorem witness_fifo :
    (queueRun [.push [1#8, 2#8], .pop, .push [3#8], .pop] (queue4 [])).map (fun x => (x.1, x.2.1, x.2.2.q)) =
      some ([1#8, 2#8, 3#8], [1#8, 2#8], [3#8]) := by decide

/-- An answer of exactly `S` bytes, one byte more, and none. -/
theorem witness_recv :
    (rxAt []).recvPending = false ∧ (rxAt []).recvIn = [] ∧
      (rxAt [.data (List.replicate 8 7#8)]).recvIn = .data (List.replicate 8 7#8) :: [] ∧
      (1 ≤ (List.replicate 8 7#8 : List Byte).length ∧
        (List.replicate 8 7#8 : List Byte).length ≤ (rxAt []).cfg.scratchSize) ∧
      ¬(1 ≤ (List.replicate 9 7#8 : List Byte).length ∧
        (List.replicate 9 7#8 : List Byte).length ≤ (rxAt []).cfg.scratchSize) := by decide

theorem witness_recv_answers :
    answerOk (rxAt []) (.data (List.replicate 8 7#8)) ∧ answerOk (rxAt []) .noData ∧ answerOk (rxAt []) .failure :=
  ⟨⟨by decide, by decide⟩, trivial, trivial⟩

theorem witness_outstanding_recv :
    (waiting 8).recvPending = true ∧ (waiting 8).recvIn = [] ∧
      ({ waiting 8 with recvIn := [.noData] } : State).recvIn = .noData :: [] ∧
      ({ waiting 8 with recvIn := [.data []] } : State).recvIn = .data [] :: [] ∧
      ¬(1 ≤ ([] : List Byte).length ∧ ([] : List Byte).length ≤ (waiting 8).cfg.scratchSize) := by decide

theorem witness_cancel_sample :
    ({ fresh .standard with cancelIn := [true] } : State).cancelIn = true :: [] ∧ (fresh .standard).cancelIn = [] := by
  decide

/-- A frame of one byte and capacities of one byte and of none. -/
theorem witness_pending_frame :
    (decAt .standard .idle true [5#8]).decHasFrame = true ∧ (decAt .standard .idle true [5#8]).decIdx ≤ 1 ∧
      0 < (decAt .standard .idle true [5#8]).decIdx ∧
      Memory.read (decAt .standard .idle true [5#8]).dbuf 0 = some 5#8 := by decide

theorem witness_refill :
    (rxAt []).cfg.Valid ∧ (rxAt []).decHasFrame = false ∧ (rxAt []).q = [] ∧ (rxAt []).recvPending = false ∧
      (rxAt []).cancelLevel = false ∧ ({ rxAt [] with cancelReq := true } : State).cancelLevel = true ∧
      (rxAt [.failure]).recvIn = .failure :: [] ∧ (rxAt [.noData]).recvIn = .noData :: [] ∧
      (rxAt [.data [1#8]]).recvIn = .data [1#8] :: [] := by decide

/-- A request outstanding, the cancel request at 1, every kind of answer: exactly `S` bytes, and one byte more. -/
theorem witness_refill_outstanding :
    (waiting 8).cfg.Valid ∧ (waiting 8).decHasFrame = false ∧ (waiting 8).q = [] ∧
      ({ waiting 8 with cancelReq := true } : State).cancelLevel = true ∧
      ({ waiting 8 with cancelReq := true } : State).recvPending = true ∧
      ({ waiting 8 with recvIn := [.failure] } : State).recvIn = .failure :: [] ∧
      ({ waiting 8 with recvIn := [.noData] } : State).recvIn = .noData :: [] ∧
      1 ≤ (List.replicate 8 7#8 : List Byte).length ∧
      (List.replicate 8 7#8 : List Byte).length ≤ (waiting 8).cfg.scratchSize ∧
      ¬(1 ≤ (List.replicate 9 7#8 : List Byte).length ∧
        (List.replicate 9 7#8 : List Byte).length ≤ (waiting 8).cfg.scratchSize) := by decide

/-- A queued byte answered `Ok`, one answered `BadEscape`, one answered `Overflow`. -/
theorem witness_drain :
    (after (.decByte 0xC0#8) (fresh .standard)).map (·.resp) = some (some { status := .ok, value := .none }) ∧
      (after (.decByte 0x05#8) (dec3 .escaping [1#8, 2#8, 3#8])).map (·.resp) =
        some (some { status := .badEscape, value := .none }) ∧
      (after (.decByte 0x05#8) (dec3 .decoding [1#8, 2#8, 3#8])).map (·.resp) =
        some (some { status := .overflow, value := .none }) ∧
      ((fresh .standard).setQueue [0xC0#8]).q = 0xC0#8 :: [] ∧
      ((fresh .standard).setQueue [0xC0#8]).decHasFrame = false := by decide

theorem witness_queued_frame :
    ((fresh .standard).setQueue [0xC0#8, 1#8, 0xC0#8, 9#8]).decHasFrame = false ∧
      ((fresh .standard).setQueue [0xC0#8, 1#8, 0xC0#8, 9#8]).decState = .idle ∧ 1 ≤ [1#8].length ∧
      [1#8].length ≤ (fresh .standard).cfg.decCap ∧ [1#8].length ≤ 1 ∧
      ((fresh .standard).setQueue [0xC0#8, 1#8, 0xC0#8, 9#8]).q = frame .standard [1#8] ++ [9#8] := by decide

theorem witness_queued_frame_invariant :
    ((fresh .standard).setQueue [0xC0#8, 1#8, 0xC0#8, 9#8]).DecoderInv := by
  constructor <;> decide

theorem witness_receive_completes : ∀ a ∈ (rxAt [.noData]).recvIn, answerOk (rxAt [.noData]) a := by
  intro a h
  have : a = .noData := by simpa [rxAt] using h
  rw [this]
  trivial

theorem witness_receive_leaves :
    (after (.rxReceiveFrame 8) (rxAt [.failure])).map (fun t => (t.rx, t.resp)) =
        some (none, some { status := .transportError, value := .none }) ∧
      (after (.rxReceiveFrame 0) (decAt .standard .idle true [5#8])).map (fun t => (t.rx, t.resp)) =
        some (none, some { status := .bufferTooSmall, value := .none }) := by decide

/-- V-R13's bytes in one answer and in two. -/
theorem witness_chunking :
    (rxAt ([[0xC0#8, 0xDB#8, 0xDC#8, 0xC0#8]].map .data)).cfg.Valid ∧
      (∀ w ∈ [[0xC0#8, 0xDB#8, 0xDC#8, 0xC0#8]], 1 ≤ w.length ∧ w.length ≤ (rxAt []).cfg.scratchSize) ∧
      (∀ w ∈ [[0xC0#8, 0xDB#8], [0xDC#8, 0xC0#8]], 1 ≤ w.length ∧ w.length ≤ (rxAt []).cfg.scratchSize) ∧
      (rxAt []).cancelReq = false ∧ (rxAt []).cancelIn = [] ∧ (rxAt []).recvPending = false ∧
      stream (rxAt ([[0xC0#8, 0xDB#8, 0xDC#8, 0xC0#8]].map .data)) =
        stream (rxAt ([[0xC0#8, 0xDB#8], [0xDC#8, 0xC0#8]].map .data)) ∧
      (after (.rxReceiveFrame 8) (rxAt ([[0xC0#8, 0xDB#8, 0xDC#8, 0xC0#8]].map .data))).isSome = true ∧
      (after (.rxReceiveFrame 8) (rxAt ([[0xC0#8, 0xDB#8], [0xDC#8, 0xC0#8]].map .data))).isSome = true := by decide

theorem witness_status_and_state_rows :
    statusOf .stCancelled = some .cancelled ∧ decStateOf .stateEscaping = some .escaping := by decide

theorem witness_commands_respond :
    (after (.encode [1#8]) (fresh .standard)).isSome = true ∧ (after (.decByte 1#8) (fresh .standard)).isSome = true ∧
      (after .decHasFrame (fresh .standard)).isSome = true ∧ (after .decTakeFrame (fresh .standard)).isSome = true ∧
      (after .decReset (fresh .standard)).isSome = true ∧
      (after (.rxReceiveFrame 8) (rxAt [.failure])).map (·.rx) = some none ∧
      (after (.rxReceiveFrame 8) (rxAt [.noData])).map (·.rx) = some (some 8) := by decide

theorem witness_only_end_sets_has_frame :
    (decAt .standard .decoding false [1#8]).decHasFrame = false ∧
      (after .wireEnd (decAt .standard .decoding false [1#8])).map (·.decHasFrame) = some true ∧
      (decAt .standard .idle true [1#8]).decHasFrame = true ∧
      (after .decReset (decAt .standard .idle true [1#8])).map (·.decHasFrame) = some false := by decide

/-- For a step and for an instruction that answers next. -/
theorem witness_next_states :
    (after (.wireData 7#8) (fresh .standard)).isSome = true ∧ (after .raw13 (fresh .standard)).isSome = true ∧
      step (fresh .standard) = .next (fresh .standard) := ⟨rfl, rfl, rfl⟩

theorem witness_sound : (decAt .standard .decoding false [1#8, 2#8]).Sound := by decide

theorem witness_inv : ∀ x ∈ (offered (bare .cmd4 5#16)).hostIn, x.hostIssuable = true := by decide

/-- A state of the invariant in the middle of a frame, with a command presented. -/
theorem witness_inv_state :
    ({ decAt .standard .decoding false [1#8] with hostIn := [bare .cmd4 5#16] } : State).Inv :=
  ⟨by decide, by constructor <;> decide, by decide, by decide⟩

theorem witness_valid_configuration : (cfgOf .standard).Valid ∧ Config.atReset.Valid := by decide

/-- Two states that differ in a byte beyond `dec.idx` and in `SCRATCH`. -/
theorem witness_same_but_unspecified :
    (decAt .standard .decoding false [1#8]).SameButUnspecified
      { decAt .standard .decoding false [1#8] with dbuf := [(0, 1#8), (5, 9#8)], scratch := [(2, 3#8)] } :=
  ⟨rfl, by decide, by decide⟩

end Sys2Proof.Tests
end

section
/-! A step by the transaction at the port, and the parameters: what each meaning that can answer next answers with, and
that none of it writes a construction parameter. -/

namespace Sys2Proof.Machine

/-! What a step is, one equation for each of its branches (R9, R92, R109). -/

theorem step_of_hostIn_nil {s : State} (hr : s.rst = false) (hx : s.rx = none) (h : s.hostIn = []) :
    step s = .next s := by
  simp [step, hr, hx, State.fetch, h]

theorem step_of_decode_instr {s : State} {x : Xact} {r : List Xact} {i : Instr} (hr : s.rst = false)
    (hx : s.rx = none) (h : s.hostIn = x :: r) (hd : decode s.cfg x = .instr i) :
    step s = exec i { s with hostIn := r } := by
  simp [step, hr, hx, State.fetch, h, hd]

theorem step_of_decode_reject {s : State} {x : Xact} {r : List Xact} {why : DecodeReject} (hr : s.rst = false)
    (hx : s.rx = none) (h : s.hostIn = x :: r) (hd : decode s.cfg x = .reject why) :
    step s = .refused (.undecodable why) := by
  simp [step, hr, hx, State.fetch, h, hd]

theorem step_of_rst {s : State} (hr : s.rst = true) : step s = .next s.blockReset := by
  simp [step, hr]

theorem step_of_rx {s : State} {c : Nat} (hr : s.rst = false) (hx : s.rx = some c) : step s = runReceive c s := by
  simp [step, hr, hx]

/-- Settles O3, one lemma about `step` for each case of the port. -/
theorem stepRunsDecodedInstruction : Obligations.StepRunsDecodedInstruction := by
  intro s hr hx
  exact ⟨step_of_hostIn_nil hr hx, fun x r h =>
    ⟨fun _ => step_of_decode_instr hr hx h, fun _ => step_of_decode_reject hr hx h⟩⟩

/-- `DEC_BYTE` answers next only where it is accepted (R61, R63). -/
theorem feed_next {s t : State} {b : Byte} (h : feed b s = .next t) :
    s.decHasFrame = false ∧ t = (s.decodeByte b).2.respond (s.decodeByte b).1 .none := by
  cases hf : s.decHasFrame with
  | true => rw [feed_held b hf] at h; cases h
  | false => rw [feed_eq b hf] at h; cases h; exact ⟨rfl, rfl⟩

/-- A pair answers next only where both its bytes do (R46). -/
theorem feedPair_next {s t : State} {b c : Byte} (h : feedPair b c s = .next t) :
    ∃ u, feed b s = .next u ∧ feed c u = .next t := by
  unfold feedPair at h
  split at h
  · exact ⟨_, ‹_›, h⟩
  · cases h
  · cases h

/-- `Q_POP` answers next only where the queue holds a byte (R79). -/
theorem execQPop_next {s t : State} (h : execQPop s = .next t) :
    ∃ b r, s.q = b :: r ∧ t = { s.setQueue r with returned := some (.byte b) } := by
  unfold execQPop State.queuePop at h
  rcases hq : s.q with _ | ⟨b, r⟩ <;> rw [hq] at h <;> cases h
  exact ⟨b, r, rfl, rfl⟩

/-- `recv` answers next while it waits and on each answer within the transport's obligation (R83). -/
theorem execRecv_next {s t : State} (h : execRecv s = .next t) :
    t = s.requestRecv ∨ (∃ a r, t = { s.requestRecv.takeAnswer r with returned := some (.answer a) }) ∨
      ∃ w r, t = { (s.requestRecv.takeAnswer r).fillScratch w with returned := some (.answer (.data w)) } := by
  unfold execRecv at h
  rcases s.recvPoll_cases with ⟨-, e⟩ | ⟨r, -, e⟩ | ⟨r, -, e⟩ | ⟨w, r, -, -, -, e⟩ | ⟨w, r, -, -, e⟩ <;>
    rw [e] at h <;> cases h
  · exact .inl rfl
  · exact .inr (.inl ⟨_, r, rfl⟩)
  · exact .inr (.inl ⟨_, r, rfl⟩)
  · exact .inr (.inr ⟨w, r, rfl⟩)

theorem feed_cfg {s t : State} {b : Byte} (h : feed b s = .next t) : t.cfg = s.cfg := by
  obtain ⟨-, rfl⟩ := feed_next h
  simp

theorem feedPair_cfg {s t : State} {b c : Byte} (h : feedPair b c s = .next t) : t.cfg = s.cfg := by
  obtain ⟨u, hb, hc⟩ := feedPair_next h
  exact (feed_cfg hc).trans (feed_cfg hb)

theorem rawStep_cfg {s t : State} {b : Byte} (h : rawStep b s = .next t) : t.cfg = s.cfg := by
  rw [rawStep_eq] at h
  split at h <;> cases h <;> simp

theorem execEncode_cfg {s t : State} {p : List Byte} (h : execEncode p s = .next t) : t.cfg = s.cfg := by
  rw [execEncode_eq] at h
  split at h <;> cases h <;> simp

theorem execRecv_cfg {s t : State} (h : execRecv s = .next t) : t.cfg = s.cfg := by
  rcases execRecv_next h with rfl | ⟨a, r, rfl⟩ | ⟨w, r, rfl⟩ <;> simp [State.requestRecv_eq]

/-- No instruction writes a construction parameter (R7, R24). -/
theorem exec_cfg {s t : State} {i : Instr} (h : exec i s = .next t) : t.cfg = s.cfg := by
  cases i with
  | wireEnd | wireEsc | wireData _ | decByte _ => exact feed_cfg h
  | seqEscEnd | seqEscEsc | seqEsc11 | seqEsc13 | seqBad _ => exact feedPair_cfg h
  | rawC0 | rawDB | raw11 | raw13 | rawOther _ => exact rawStep_cfg h
  | encode _ => exact execEncode_cfg h
  | rxReceiveFrame _ => exact (runReceive_frame h).1
  | qPop => obtain ⟨_, _, _, rfl⟩ := execQPop_next h; rfl
  | recv => exact execRecv_cfg h
  | cmdReserved0 | cmdReserved7 | cmdReserved8F _ | stNever67 _ => cases h
  | _ => exact Host.Outcome.next.inj h ▸ rfl

/-- No step does, block reset included (R7, R109). -/
theorem step_cfg {s t : State} (h : step s = .next t) : t.cfg = s.cfg := by
  cases hr : s.rst with
  | true => rw [step_of_rst hr] at h; cases h; simp
  | false =>
    cases hx : s.rx with
    | some c => exact (runReceive_frame (step_of_rx hr hx ▸ h)).1
    | none =>
      rcases hi : s.hostIn with _ | ⟨x, r⟩
      · rw [step_of_hostIn_nil hr hx hi] at h
        cases h
        rfl
      · cases hd : decode s.cfg x with
        | instr i => exact exec_cfg (s := { s with hostIn := r }) (step_of_decode_instr hr hx hi hd ▸ h)
        | reject why => rw [step_of_decode_reject hr hx hi hd] at h; cases h

/-- Settles O54: `exec_cfg` and `step_cfg`. -/
theorem parametersNeverChange : Obligations.ParametersNeverChange :=
  ⟨fun _ _ _ => exec_cfg, fun _ _ => step_cfg⟩

end Sys2Proof.Machine
end

section
/-! Unspecified bytes are never seen (R10, R26, U1, U2): every operation takes two states that differ in such bytes only
to two states that differ so again, and no branch of a meaning looks at one. -/

namespace Sys2Proof.Machine

/-- Two ends of a turn of the receive loop that no observer can tell apart. -/
inductive SameTurn : Turn → Turn → Prop where
  | returned {s t : State} (h : s.SameButUnspecified t) : SameTurn (.returned s) (.returned t)
  | waits {s t : State} (h : s.SameButUnspecified t) : SameTurn (.waits s) (.waits t)
  | again {s t : State} (h : s.SameButUnspecified t) : SameTurn (.again s) (.again t)
  | refuses (r : Refusal) : SameTurn (.refuses r) (.refuses r)

/-- One more byte written at the live index of two buffers that agree below it. -/
theorem Memory.agree_write {m m' : Memory} {n : Nat}
    (h : ∀ i < n, Memory.read m i = Memory.read m' i ∧ (Memory.read m i).isSome = true) (v : Byte) :
    ∀ i < n + 1, Memory.read (Memory.write m n v) i = Memory.read (Memory.write m' n v) i ∧
      (Memory.read (Memory.write m n v) i).isSome = true := by
  intro i hi
  simp only [Memory.read_write]
  split
  · exact ⟨rfl, rfl⟩
  · exact h i (by omega)

namespace State.SameButUnspecified

section
variable {s t : State} (h : s.SameButUnspecified t)
include h

/-! What a meaning tests or shows is equal in the two states. -/

theorem cfg_eq : t.cfg = s.cfg := by rw [h.others]

theorem encWidx_eq : t.encWidx = s.encWidx := by rw [h.others]

theorem decIdx_eq : t.decIdx = s.decIdx := by rw [h.others]

theorem decHasFrame_eq : t.decHasFrame = s.decHasFrame := by rw [h.others]

theorem decState_eq : t.decState = s.decState := by rw [h.others]

theorem q_eq : t.q = s.q := by rw [h.others]

theorem out_eq : t.out = s.out := by rw [h.others]

theorem rx_eq : t.rx = s.rx := by rw [h.others]

theorem recvPending_eq : t.recvPending = s.recvPending := by rw [h.others]

theorem hostIn_eq : t.hostIn = s.hostIn := by rw [h.others]

theorem recvIn_eq : t.recvIn = s.recvIn := by rw [h.others]

theorem rst_eq : t.rst = s.rst := by rw [h.others]

theorem queueLen_eq : t.queueLen = s.queueLen := by rw [h.others]; rfl

theorem cancelLevel_eq : t.cancelLevel = s.cancelLevel := by rw [h.others]; rfl

theorem frameTooLong_eq (n : Nat) : t.frameTooLong n = s.frameTooLong n := by rw [h.others]; rfl

theorem outTooSmall_eq (c : Nat) : t.outTooSmall c = s.outTooSmall c := by rw [h.others]; rfl

theorem answerInRange_eq (w : List Byte) : t.answerInRange w = s.answerInRange w := by rw [h.others]; rfl

theorem loopWork_eq : t.loopWork = s.loopWork := by rw [h.others]; rfl

/-- The payload accumulated so far does not depend on a free byte: each of its bytes has been written (R72). -/
theorem dbufLive_eq : t.dbufLive = s.dbufLive := by
  unfold State.dbufLive State.bytesBelow
  rw [h.decIdx_eq]
  refine List.map_congr_left fun i hi => ?_
  obtain ⟨he, hw⟩ := h.dbufLive i (List.mem_range.1 hi)
  obtain ⟨v, hv⟩ := Option.isSome_iff_exists.1 hw
  rw [State.byteAt_of_read (s := s) (buf := .dbuf) hv, State.byteAt_of_read (s := t) (buf := .dbuf) (he ▸ hv)]

/-! Operations that leave the live bytes and their indices as they are. -/

theorem respond (st : Status) (v : RespValue) : (s.respond st v).SameButUnspecified (t.respond st v) := by
  rw [h.others]
  exact ⟨rfl, h.obufLive, h.dbufLive⟩

theorem goto (d : DecState) : (s.goto d).SameButUnspecified (t.goto d) := by
  rw [h.others]
  exact ⟨rfl, h.obufLive, h.dbufLive⟩

theorem setHasFrame : s.setHasFrame.SameButUnspecified t.setHasFrame := by
  rw [h.others]
  exact ⟨rfl, h.obufLive, h.dbufLive⟩

theorem setQueue (q : List Byte) : (s.setQueue q).SameButUnspecified (t.setQueue q) := by
  rw [h.others]
  exact ⟨rfl, h.obufLive, h.dbufLive⟩

theorem queuePush (w : List Byte) : (s.queuePush w).SameButUnspecified (t.queuePush w) := by
  rw [h.others]
  exact ⟨rfl, h.obufLive, h.dbufLive⟩

theorem emitBadEscape : s.emitBadEscape.SameButUnspecified t.emitBadEscape := by
  rw [h.others]
  exact ⟨rfl, h.obufLive, h.dbufLive⟩

theorem afterCancelSample : s.afterCancelSample.SameButUnspecified t.afterCancelSample := by
  rw [h.others]
  exact ⟨rfl, h.obufLive, h.dbufLive⟩

theorem requestRecv : s.requestRecv.SameButUnspecified t.requestRecv := by
  rw [State.requestRecv_eq, State.requestRecv_eq, h.others]
  exact ⟨rfl, h.obufLive, h.dbufLive⟩

theorem asked : s.asked.SameButUnspecified t.asked := by
  rw [h.others]
  exact ⟨rfl, h.obufLive, h.dbufLive⟩

theorem takeAnswer (r : List RecvAnswer) : (s.takeAnswer r).SameButUnspecified (t.takeAnswer r) := by
  rw [h.others]
  exact ⟨rfl, h.obufLive, h.dbufLive⟩

theorem fillScratch (w : List Byte) : (s.fillScratch w).SameButUnspecified (t.fillScratch w) := by
  rw [h.others]
  exact ⟨rfl, h.obufLive, h.dbufLive⟩

theorem setOut (m : Memory) : ({ s with out := m } : State).SameButUnspecified { t with out := m } := by
  rw [h.others]
  exact ⟨rfl, h.obufLive, h.dbufLive⟩

theorem setRx (c : Option Nat) : ({ s with rx := c } : State).SameButUnspecified { t with rx := c } := by
  rw [h.others]
  exact ⟨rfl, h.obufLive, h.dbufLive⟩

theorem setReturned (r : Option Returned) :
    ({ s with returned := r } : State).SameButUnspecified { t with returned := r } := by
  rw [h.others]
  exact ⟨rfl, h.obufLive, h.dbufLive⟩

theorem setHostIn (x : List Xact) : ({ s with hostIn := x } : State).SameButUnspecified { t with hostIn := x } := by
  rw [h.others]
  exact ⟨rfl, h.obufLive, h.dbufLive⟩

/-! Operations that move a live index: to 0, where no byte is live, or past the byte they write. -/

theorem decoderReset : s.decoderReset.SameButUnspecified t.decoderReset := by
  rw [h.others]
  exact ⟨rfl, h.obufLive, by simp⟩

theorem dropFrame : s.dropFrame.SameButUnspecified t.dropFrame := by
  rw [h.others]
  exact ⟨rfl, h.obufLive, by simp⟩

theorem encoderStart : s.encoderStart.SameButUnspecified t.encoderStart := by
  rw [h.others]
  exact ⟨rfl, by simp, h.dbufLive⟩

theorem blockReset : s.blockReset.SameButUnspecified t.blockReset := by
  rw [h.others]
  exact ⟨rfl, by simp, by simp⟩

theorem emit (v : Byte) : (s.emit v).SameButUnspecified (t.emit v) := by
  rw [h.others]
  exact ⟨rfl, Memory.agree_write h.obufLive v, h.dbufLive⟩

theorem emitSeq (w : List Byte) : (s.emitSeq w).SameButUnspecified (t.emitSeq w) := by
  induction w generalizing s t with
  | nil => exact h
  | cons v w ih => exact ih (h.emit v)

/-- The append primitive fits in both states or in neither (R68). -/
theorem appendThen (v : Byte) (d : DecState) :
    (s.appendThen v d).1 = (t.appendThen v d).1 ∧ (s.appendThen v d).2.SameButUnspecified (t.appendThen v d).2 := by
  rw [State.appendThen_eq, State.appendThen_eq, h.cfg_eq, h.decIdx_eq]
  split
  · exact ⟨rfl, h⟩
  · rw [h.others]
    exact ⟨rfl, rfl, h.obufLive, Memory.agree_write h.dbufLive v⟩

/-- One accepted byte: the same status, and states that differ as little as before (R61). -/
theorem decodeByte (b : Byte) :
    (s.decodeByte b).1 = (t.decodeByte b).1 ∧ (s.decodeByte b).2.SameButUnspecified (t.decodeByte b).2 := by
  unfold State.decodeByte
  rw [h.decState_eq, h.cfg_eq]
  cases s.decState with
  | idle =>
    cases cls b with
    | endMark => exact ⟨rfl, h.goto _⟩
    | escMark | other => exact ⟨rfl, h⟩
  | frameOpen =>
    cases cls b with
    | endMark => exact ⟨rfl, h⟩
    | escMark => exact ⟨rfl, h.goto _⟩
    | other => exact h.appendThen b _
  | decoding =>
    cases cls b with
    | endMark => exact ⟨rfl, h.setHasFrame.goto _⟩
    | escMark => exact ⟨rfl, h.goto _⟩
    | other => exact h.appendThen b _
  | escaping =>
    cases unesc s.cfg.variant b with
    | none => exact ⟨rfl, h.dropFrame⟩
    | some v => exact h.appendThen v _

end

end State.SameButUnspecified

section
variable {s t : State} (h : s.SameButUnspecified t)
include h

/-! The meanings that are more than one shared operation. -/

theorem feed_sameOutcome (b : Byte) : sameOutcome (feed b s) (feed b t) := by
  obtain ⟨hst, hd⟩ := h.decodeByte b
  unfold feed State.held
  rw [h.decHasFrame_eq, hst]
  split
  · rfl
  · exact hd.respond _ _

theorem feedPair_sameOutcome (b c : Byte) : sameOutcome (feedPair b c s) (feedPair b c t) := by
  obtain ⟨hst, hd⟩ := h.decodeByte b
  unfold feedPair
  cases hf : s.decHasFrame with
  | true =>
    rw [feed_held b hf, feed_held b (h.decHasFrame_eq.trans hf)]
    rfl
  | false =>
    rw [feed_eq b hf, feed_eq b (h.decHasFrame_eq.trans hf), hst]
    exact feed_sameOutcome (hd.respond _ _) c

theorem rawStep_sameOutcome (b : Byte) : sameOutcome (rawStep b s) (rawStep b t) := by
  simp only [rawStep, State.encodeByte, h.cfg_eq, h.encWidx_eq, h.frameTooLong_eq]
  cases s.frameTooLong (s.encWidx + (esc s.cfg.variant b).length + 1) with
  | true => exact h.encoderStart.respond _ _
  | false => exact h.emitSeq _

theorem execEncode_sameOutcome (p : List Byte) : sameOutcome (execEncode p s) (execEncode p t) := by
  simp only [execEncode, h.cfg_eq, h.frameTooLong_eq]
  cases s.frameTooLong (frameLen s.cfg.variant p) with
  | true => exact h.encoderStart.respond _ _
  | false => exact (h.encoderStart.emitSeq _).respond _ _

theorem execQPop_sameOutcome : sameOutcome (execQPop s) (execQPop t) := by
  unfold execQPop State.queuePop
  rw [h.q_eq]
  cases s.q with
  | nil => rfl
  | cons b r => exact (h.setQueue r).setReturned _

theorem execRecv_sameOutcome : sameOutcome (execRecv s) (execRecv t) := by
  have hr := h.requestRecv
  simp only [execRecv, State.recvPoll, hr.recvIn_eq, hr.answerInRange_eq]
  match s.requestRecv.recvIn with
  | []           => exact hr
  | .noData :: r  => exact (hr.takeAnswer r).setReturned _
  | .failure :: r => exact (hr.takeAnswer r).setReturned _
  | .data w :: r  =>
    dsimp only
    cases s.requestRecv.answerInRange w with
    | true => exact ((hr.takeAnswer r).fillScratch w).setReturned _
    | false => rfl

/-! The receive loop (R86). -/

/-- Step A (R87): what is delivered is written, and so the same. -/
theorem deliver_sameTurn (c : Nat) : SameTurn (deliver c s) (deliver c t) := by
  unfold deliver
  rw [h.outTooSmall_eq, h.decIdx_eq, h.out_eq, h.dbufLive_eq]
  cases s.outTooSmall c with
  | true => exact .returned (h.decoderReset.respond _ _)
  | false => exact .returned ((h.setOut _).decoderReset.respond _ _)

/-- Step C (R90). -/
theorem drain_sameTurn (b : Byte) : SameTurn (drain b s) (drain b t) := by
  obtain ⟨hst, hd⟩ := h.decodeByte b
  unfold drain
  generalize s.decodeByte b = x at hst hd
  generalize t.decodeByte b = y at hst hd
  obtain ⟨st, s'⟩ := x
  obtain ⟨_, t'⟩ := y
  cases hst
  cases st with
  | badEscape => exact .again hd.emitBadEscape
  | overflow => exact .returned (hd.decoderReset.respond _ _)
  | _ => exact .again hd

/-- Step B once the request stands (R88). -/
theorem turn_sameTurn_of_asked (c : Nat) (hf : s.decHasFrame = false) (hq : s.q = [])
    (hl : s.recvPending = true ∨ s.cancelLevel = false) : SameTurn (turn c s) (turn c t) := by
  have hf' := h.decHasFrame_eq.trans hf
  have hq' := h.q_eq.trans hq
  have hl' : t.recvPending = true ∨ t.cancelLevel = false := by rwa [h.recvPending_eq, h.cancelLevel_eq]
  rcases hr : s.recvIn with _ | ⟨_ | _ | _, r⟩ <;> have hr' := h.recvIn_eq.trans hr
  case nil =>
    rw [turn_waits hf hq hl hr, turn_waits hf' hq' hl' hr']
    exact .waits h.asked
  case cons.noData =>
    rw [turn_retries hf hq hl hr, turn_retries hf' hq' hl' hr']
    exact .again (h.asked.takeAnswer r)
  case cons.failure =>
    rw [turn_fails hf hq hl hr, turn_fails hf' hq' hl' hr']
    exact .returned ((h.asked.takeAnswer r).respond _ _)
  case cons.data w =>
    by_cases hw : 1 ≤ w.length ∧ w.length ≤ s.cfg.scratchSize
    · rw [turn_refills hf hq hl hr hw.1 hw.2, turn_refills hf' hq' hl' hr' hw.1 (h.cfg_eq ▸ hw.2)]
      exact .again (((h.asked.takeAnswer r).fillScratch w).queuePush w)
    · rw [turn_refuses hf hq hl hr hw, turn_refuses hf' hq' hl' hr' (h.cfg_eq ▸ hw)]
      exact .refuses _

theorem turn_sameTurn (c : Nat) : SameTurn (turn c s) (turn c t) := by
  cases hf : s.decHasFrame with
  | true =>
    simp only [turn, h.decHasFrame_eq, hf, if_true]
    exact deliver_sameTurn h c
  | false =>
    have hf' := h.decHasFrame_eq.trans hf
    cases hq : s.q with
    | cons b r =>
      rw [turn_drains hf hq, turn_drains hf' (h.q_eq.trans hq)]
      exact drain_sameTurn (h.setQueue r) b
    | nil =>
      by_cases hl : s.recvPending = true ∨ s.cancelLevel = false
      · exact turn_sameTurn_of_asked h c hf hq hl
      · simp only [not_or, Bool.not_eq_true, Bool.not_eq_false] at hl
        obtain ⟨hp, hl⟩ := hl
        rw [turn_cancelled hf hq hp hl,
          turn_cancelled hf' (h.q_eq.trans hq) (h.recvPending_eq.trans hp) (h.cancelLevel_eq.trans hl)]
        exact .returned (h.afterCancelSample.respond _ _)

theorem loop_sameOutcome (c n : Nat) : sameOutcome (loop c n s) (loop c n t) := by
  induction n generalizing s t with
  | zero => exact h
  | succ n ih =>
    have ht := turn_sameTurn h c
    simp only [loop]
    generalize turn c s = x at ht
    generalize turn c t = y at ht
    cases ht with
    | returned h' | waits h' => exact h'
    | again h' => exact ih h'
    | refuses r => rfl

theorem runReceive_sameOutcome (c : Nat) : sameOutcome (runReceive c s) (runReceive c t) := by
  unfold runReceive
  rw [h.loopWork_eq]
  exact loop_sameOutcome h c _

/-- No instruction lets anyone see an unspecified byte (R10). -/
theorem exec_sameOutcome (i : Instr) : sameOutcome (exec i s) (exec i t) := by
  cases i with
  | wireEnd | wireEsc | wireData _ | decByte _ => exact feed_sameOutcome h _
  | seqEscEnd | seqEscEsc | seqEsc11 | seqEsc13 | seqBad _ => exact feedPair_sameOutcome h _ _
  | rawC0 | rawDB | raw11 | raw13 | rawOther _ => exact rawStep_sameOutcome h _
  | encode p => exact execEncode_sameOutcome h p
  | decHasFrame =>
    simp only [exec, execDecHasFrame, h.decHasFrame_eq]
    exact h.respond _ _
  | decTakeFrame =>
    simp only [exec, execDecTakeFrame, h.decIdx_eq, h.dbufLive_eq]
    exact h.respond _ _
  | decReset => exact h.decoderReset.respond _ _
  | rxReceiveFrame c => exact runReceive_sameOutcome (h.setRx _) c
  | cmdReserved0 | cmdReserved7 | cmdReserved8F _ | stNever67 _ => rfl
  | qPush w => exact h.queuePush w
  | qPop => exact execQPop_sameOutcome h
  | qLen =>
    simp only [exec, execQLen, h.queueLen_eq]
    exact h.setReturned _
  | qReset => exact h.setQueue []
  | recv => exact execRecv_sameOutcome h
  | cancelSample =>
    simp only [exec, execCancelSample, h.cancelLevel_eq]
    exact h.afterCancelSample.setReturned _
  | evBadEscape => exact h.emitBadEscape
  | stOk | stOverflow | stBadEscape | stBufferTooSmall | stTransportError | stCancelled => exact h.respond _ _
  | stateIdle | stateFrameOpen | stateDecoding | stateEscaping => exact h.goto _

/-- Nor does any step, block reset included (R10, R109). -/
theorem step_sameOutcome : sameOutcome (step s) (step t) := by
  cases hr : s.rst with
  | true =>
    rw [step_of_rst hr, step_of_rst (h.rst_eq.trans hr)]
    exact h.blockReset
  | false =>
    have hr' := h.rst_eq.trans hr
    cases hx : s.rx with
    | some c =>
      rw [step_of_rx hr hx, step_of_rx hr' (h.rx_eq.trans hx)]
      exact runReceive_sameOutcome h c
    | none =>
      have hx' := h.rx_eq.trans hx
      cases hi : s.hostIn with
      | nil =>
        rw [step_of_hostIn_nil hr hx hi, step_of_hostIn_nil hr' hx' (h.hostIn_eq.trans hi)]
        exact h
      | cons x r =>
        have hi' := h.hostIn_eq.trans hi
        cases hd : decode s.cfg x with
        | instr i =>
          rw [step_of_decode_instr hr hx hi hd, step_of_decode_instr hr' hx' hi' (h.cfg_eq ▸ hd)]
          exact exec_sameOutcome (h.setHostIn r) i
        | reject why =>
          rw [step_of_decode_reject hr hx hi hd, step_of_decode_reject hr' hx' hi' (h.cfg_eq ▸ hd)]
          rfl

end

/-- Settles O60: `step_sameOutcome`, which rests on one such lemma for each shared operation and each meaning. -/
theorem unspecifiedBytesAreNeverSeen : Obligations.UnspecifiedBytesAreNeverSeen :=
  fun _ _ => step_sameOutcome

end Sys2Proof.Machine
end

section
/-! The reset values, the state rows, and the one flag: what the meanings that touch `dec.has_frame` do to it, and that
every other meaning keeps it (R18, R19, R26). -/

namespace Sys2Proof.Machine

/-- No byte of any buffer is written at reset (R26). -/
theorem State.buffer_resetOf (c : Config) (buf : Buf) : (State.resetOf c).buffer buf = Memory.unspecified := by
  cases buf <;> rfl

/-- Settles O1: the registers by evaluation, the buffers by `State.buffer_resetOf`. -/
theorem resetValues : Obligations.ResetValues :=
  ⟨rfl, fun c => ⟨rfl, rfl, rfl, rfl, rfl, fun i buf => by
    rw [State.buffer_resetOf, Memory.read_unspecified]⟩⟩

/-- Settles O52: the four rows that have a decoder state, each by its arm of `exec` and of `encode`. -/
theorem stateRowsAreTransitions : Obligations.StateRowsAreTransitions := by
  intro s i d h
  cases i with
  | stateIdle | stateFrameOpen | stateDecoding | stateEscaping => cases h; exact ⟨rfl, rfl⟩
  | _ => cases h

/-- The indices are 0 and the buffers empty, so soundness at reset is the validity of the parameters (R7, R26). -/
theorem State.sound_resetOf {c : Config} (hc : c.Valid) : (State.resetOf c).Sound :=
  ⟨hc, ⟨Nat.zero_le _, Nat.zero_le _, Nat.zero_le _⟩,
    ⟨Memory.wf_unspecified, Memory.wf_unspecified, Memory.wf_unspecified, Memory.wf_unspecified,
      Memory.within_unspecified _, Memory.within_unspecified _, Memory.within_unspecified _⟩,
    ⟨Memory.filled_zero _, Memory.filled_zero _⟩⟩

/-- The invariant at reset: the Decoder is where `DEC_RESET` puts it, no command runs, nothing is at the port. -/
theorem State.inv_resetOf {c : Config} (hc : c.Valid) : (State.resetOf c).Inv where
  sound := State.sound_resetOf hc
  decoder := .of_decoderReset (State.resetOf c)
  waits := by simp [State.WaitInv, State.resetOf]
  hostOnly := by simp [State.HostOnly, State.resetOf]

/-- Settles O59: `State.inv_resetOf`, and that the parameters of log entry 1 are valid. -/
theorem invariantHoldsAtReset : Obligations.InvariantHoldsAtReset :=
  ⟨State.inv_resetOf (by decide), fun _ => State.inv_resetOf⟩

/-- A byte that completes a frame is the closing `END` in `Decoding` (R66). -/
theorem State.decodeByte_completes {s : State} {b : Byte} (hf : s.decHasFrame = false)
    (ht : (s.decodeByte b).2.decHasFrame = true) : s.decState = .decoding ∧ b = 0xC0#8 := by
  have e := s.decodeByte_effect b
  generalize s.decodeByte b = r at e ht
  cases e with
  | completes hs hb => exact ⟨hs, hb⟩
  | _ => simp [hf] at ht

/-- After `ESC` the Decoder is never in `Decoding`: it ignored it, is in `Escaping`, or dropped the frame (R62). -/
theorem State.decodeByte_bEsc_ne_decoding (s : State) : (s.decodeByte bEsc).2.decState ≠ .decoding := by
  have e := s.decodeByte_effect bEsc
  generalize s.decodeByte bEsc = r at e
  cases e with
  | ignored h => rcases h with ⟨hs, -⟩ | ⟨hs, -⟩ <;> simp [hs]
  | appends v hs hcap hv | overflows v hs hcap hv => simp [bEsc, cls] at hv
  | _ => simp

/-- `DEC_BYTE` makes a frame pending by `END` in `Decoding`, and otherwise keeps the flag (R63, R66). -/
theorem feed_hasFrame {s t : State} {b : Byte} (h : feed b s = .next t) :
    t.decHasFrame = s.decHasFrame ∨ (t.decHasFrame = true ∧ s.decState = .decoding ∧ b = 0xC0#8) := by
  obtain ⟨hf, rfl⟩ := feed_next h
  simp only [State.respond_fields, hf]
  cases ht : (s.decodeByte b).2.decHasFrame with
  | false => exact .inl rfl
  | true => exact .inr ⟨rfl, State.decodeByte_completes hf ht⟩

/-- An escape pair completes no frame, whatever its second byte (R46, R66). -/
theorem feedPair_hasFrame {s t : State} {c : Byte} (h : feedPair bEsc c s = .next t) :
    t.decHasFrame = s.decHasFrame := by
  obtain ⟨u, hb, hc⟩ := feedPair_next h
  obtain ⟨hs, rfl⟩ := feed_next hb
  rcases feed_hasFrame hc with ht | ⟨-, hd, -⟩
  · rw [ht, (feed_next hc).1, hs]
  · exact absurd (by simpa using hd) s.decodeByte_bEsc_ne_decoding

theorem rawStep_hasFrame {s t : State} {b : Byte} (h : rawStep b s = .next t) : t.decHasFrame = s.decHasFrame := by
  rw [rawStep_eq] at h
  split at h <;> cases h <;> simp

theorem execEncode_hasFrame {s t : State} {p : List Byte} (h : execEncode p s = .next t) :
    t.decHasFrame = s.decHasFrame := by
  rw [execEncode_eq] at h
  split at h <;> cases h <;> simp

theorem execRecv_hasFrame {s t : State} (h : execRecv s = .next t) : t.decHasFrame = s.decHasFrame := by
  rcases execRecv_next h with rfl | ⟨a, r, rfl⟩ | ⟨w, r, rfl⟩ <;> simp [State.requestRecv_eq]

/-- The Receiver returns or waits with no frame pending only: it applies `DEC_RESET` to each frame it delivers or
drops, and refills only where none is pending (R87, R88, R90). -/
theorem turn_hasFrame {c : Nat} {s s' : State} (h : turn c s = .returned s' ∨ turn c s = .waits s') :
    s'.decHasFrame = false := by
  have e := turn_effect c s
  rcases h with h | h <;> rw [h] at e <;> cases e <;> simp [*]

theorem runReceive_hasFrame {c : Nat} {s t : State} (h : runReceive c s = .next t) : t.decHasFrame = false := by
  refine runReceive_induction (c := c) (P := fun _ o => ∀ t, o = .next t → t.decHasFrame = false)
    ?_ ?_ ?_ ?_ s t h
  · rintro a b ht _ ⟨⟩
    exact turn_hasFrame (.inl ht)
  · rintro a b ht _ ⟨⟩
    exact turn_hasFrame (.inr ht)
  · rintro a r - _ ⟨⟩
  · exact fun a b o _ ih => ih

/-- What an instruction does to `dec.has_frame`, all of it (R19). -/
theorem exec_hasFrame {s t : State} {i : Instr} (h : exec i s = .next t) :
    t.decHasFrame = s.decHasFrame ∨
      (t.decHasFrame = true ∧ s.decState = .decoding ∧ (i = .decByte 0xC0#8 ∨ i = .wireEnd ∨ i = .wireData 0xC0#8)) ∨
      (t.decHasFrame = false ∧ (i = .decReset ∨ ∃ c, i = .rxReceiveFrame c)) := by
  cases i with
  | wireEnd => exact (feed_hasFrame h).imp_right fun ⟨ht, hd, _⟩ => .inl ⟨ht, hd, .inr (.inl rfl)⟩
  | wireEsc => exact (feed_hasFrame h).imp_right fun ⟨_, _, hb⟩ => absurd hb (by decide)
  | wireData _ | decByte _ => exact (feed_hasFrame h).imp_right fun ⟨ht, hd, hb⟩ => .inl ⟨ht, hd, by simp [hb]⟩
  | seqEscEnd | seqEscEsc | seqEsc11 | seqEsc13 | seqBad _ => exact .inl (feedPair_hasFrame h)
  | rawC0 | rawDB | raw11 | raw13 | rawOther _ => exact .inl (rawStep_hasFrame h)
  | encode _ => exact .inl (execEncode_hasFrame h)
  | decReset => cases h; exact .inr (.inr ⟨rfl, .inl rfl⟩)
  | rxReceiveFrame c => exact .inr (.inr ⟨runReceive_hasFrame h, .inr ⟨c, rfl⟩⟩)
  | qPop => obtain ⟨_, _, _, rfl⟩ := execQPop_next h; exact .inl rfl
  | recv => exact .inl (execRecv_hasFrame h)
  | cmdReserved0 | cmdReserved7 | cmdReserved8F _ | stNever67 _ => cases h
  | _ => exact .inl (Host.Outcome.next.inj h ▸ rfl)

/-- Settles O55: the flag differs before and after in two of `exec_hasFrame`'s cases, which are the two of R19. -/
theorem onlyEndSetsHasFrame : Obligations.OnlyEndSetsHasFrame := by
  intro s t i h
  rcases exec_hasFrame h with hk | ⟨ht, hset⟩ | ⟨ht, hclear⟩
  · exact ⟨fun hs ht => by simp [hk, hs] at ht, fun hs ht => by simp [hk, hs] at ht⟩
  · exact ⟨fun _ _ => hset, fun _ hf => by simp [ht] at hf⟩
  · exact ⟨fun _ hf => by simp [ht] at hf, fun _ _ => hclear⟩

end Sys2Proof.Machine
end

section
/-! The state stays sound (R27, R31, R38): one rule for each state element that soundness speaks of, then each shared
operation, then each meaning. -/

namespace Sys2Proof.Machine

section
variable {s : State} (h : s.Sound)
include h

/-! One rule for each element: what the new contents must meet. An operation that writes none of these elements keeps
soundness as it is. -/

theorem State.Sound.setEncoder {m : Memory} {n : Nat} (hn : n ≤ s.cfg.encCap) (hw : m.wf)
    (hc : m.within s.cfg.encCap) (hf : m.filled n) : ({ s with obuf := m, encWidx := n } : State).Sound := by
  obtain ⟨hv, ⟨-, hd, hq⟩, ⟨-, wd, ws, wo, -, cd, cs⟩, -, fd⟩ := h
  exact ⟨hv, ⟨hn, hd, hq⟩, ⟨hw, wd, ws, wo, hc, cd, cs⟩, hf, fd⟩

theorem State.Sound.setDecoder {m : Memory} {n : Nat} (hn : n ≤ s.cfg.decCap) (hw : m.wf)
    (hc : m.within s.cfg.decCap) (hf : m.filled n) : ({ s with dbuf := m, decIdx := n } : State).Sound := by
  obtain ⟨hv, ⟨he, -, hq⟩, ⟨we, -, ws, wo, ce, -, cs⟩, fe, -⟩ := h
  exact ⟨hv, ⟨he, hn, hq⟩, ⟨we, hw, ws, wo, ce, hc, cs⟩, fe, hf⟩

theorem State.Sound.setQueue {q : List Byte} (hq : q.length ≤ s.cfg.qCap) : (s.setQueue q).Sound := by
  obtain ⟨hv, ⟨he, hd, -⟩, hb, hl⟩ := h
  exact ⟨hv, ⟨he, hd, hq⟩, hb, hl⟩

theorem State.Sound.setOut {m : Memory} (hw : m.wf) : ({ s with out := m } : State).Sound := by
  obtain ⟨hv, hi, ⟨we, wd, ws, -, hc⟩, hl⟩ := h
  exact ⟨hv, hi, ⟨we, wd, ws, hw, hc⟩, hl⟩

theorem State.Sound.fillScratch {w : List Byte} (hw : w.length ≤ s.cfg.scratchSize) : (s.fillScratch w).Sound := by
  obtain ⟨hv, hi, ⟨we, wd, -, wo, ce, cd, -⟩, hl⟩ := h
  exact ⟨hv, hi, ⟨we, wd, Memory.wf_writeSeq Memory.wf_unspecified 0 w, wo, ce, cd,
    Memory.within_writeSeq (Memory.within_unspecified _) w (by simpa using hw)⟩, hl⟩

theorem State.Sound.requestRecv : s.requestRecv.Sound := by
  rw [State.requestRecv_eq]
  exact h

/-! The Decoder. -/

/-- `dec.idx` cleared by `DEC_RESET` or by a bad escape: `DBUF` keeps its cells, none of them live (R69, R73). -/
theorem State.Sound.clearIdx : ({ s with decIdx := 0 } : State).Sound := by
  obtain ⟨-, -, ⟨-, wd, -, -, -, cd, -⟩, -⟩ := id h
  exact h.setDecoder (Nat.zero_le _) wd cd (Memory.filled_zero _)

theorem State.Sound.decoderReset : s.decoderReset.Sound := h.clearIdx

/-- A byte that fits, appended at `dec.idx` (R68). -/
theorem State.Sound.append (hcap : s.decIdx ≠ s.cfg.decCap) (v : Byte) :
    ({ s with dbuf := Memory.write s.dbuf s.decIdx v, decIdx := s.decIdx + 1 } : State).Sound := by
  obtain ⟨-, ⟨-, hd, -⟩, ⟨-, wd, -, -, -, cd, -⟩, -, fd⟩ := id h
  exact h.setDecoder (by omega) (Memory.wf_write wd _ v) (Memory.within_write cd (by omega) v)
    (Memory.filled_write fd v)

theorem State.Sound.decodeByte (b : Byte) : (s.decodeByte b).2.Sound := by
  have e := s.decodeByte_effect b
  generalize s.decodeByte b = r at e
  cases e with
  | appends v _ hcap _ => exact h.append hcap v
  | bad => exact h.clearIdx
  | _ => exact h

theorem feed_sound {t : State} {b : Byte} (ht : feed b s = .next t) : t.Sound := by
  obtain ⟨-, rfl⟩ := feed_next ht
  exact h.decodeByte b

theorem feedPair_sound {t : State} {b c : Byte} (ht : feedPair b c s = .next t) : t.Sound := by
  obtain ⟨u, hb, hc⟩ := feedPair_next ht
  exact feed_sound (feed_sound h hb) hc

/-! The Encoder. -/

theorem State.Sound.encoderStart : s.encoderStart.Sound :=
  h.setEncoder (Nat.zero_le _) Memory.wf_unspecified (Memory.within_unspecified _) (Memory.filled_zero _)

/-- Bytes that fit, written at `enc.widx` (R54, R57). -/
theorem State.Sound.emitSeq {w : List Byte} (hw : s.encWidx + w.length ≤ s.cfg.encCap) : (s.emitSeq w).Sound := by
  rw [State.emitSeq_eq]
  obtain ⟨-, -, ⟨we, -, -, -, ce, -⟩, fe, -⟩ := id h
  exact h.setEncoder hw (Memory.wf_writeSeq we _ w) (Memory.within_writeSeq ce w hw) (Memory.filled_writeSeq fe w)

theorem rawStep_sound {t : State} {b : Byte} (ht : rawStep b s = .next t) : t.Sound := by
  rw [rawStep, State.encodeByte_eq] at ht
  split at ht <;> rename_i hm <;> split at hm <;> cases hm <;> cases ht
  · exact h.encoderStart
  · exact h.emitSeq (by omega)

theorem execEncode_sound {t : State} {p : List Byte} (ht : execEncode p s = .next t) : t.Sound := by
  simp only [execEncode] at ht
  split at ht <;> cases ht <;> rename_i hfit
  · exact h.encoderStart
  · simp only [State.frameTooLong_iff] at hfit
    exact h.encoderStart.emitSeq (w := frame s.cfg.variant p) (by simp [frame_length]; omega)

/-! The queue and the Receiver. -/

theorem State.Sound.queuePush (w : List Byte) : (s.queuePush w).Sound := by
  obtain ⟨⟨-, hS, hSq, -⟩, ⟨-, -, hq⟩, -⟩ := id h
  exact h.setQueue (foldl_pushByte_length_le (hS.trans hSq) w hq)

/-- The queue without its oldest byte (R79). -/
theorem State.Sound.dropOldest {b : Byte} {r : List Byte} (hq : s.q = b :: r) : (s.setQueue r).Sound := by
  obtain ⟨-, ⟨-, -, hl⟩, -⟩ := id h
  exact h.setQueue (by simp only [hq, List.length_cons] at hl; omega)

theorem execRecv_sound {t : State} (ht : execRecv s = .next t) : t.Sound := by
  unfold execRecv at ht
  rcases s.recvPoll_cases with ⟨-, e⟩ | ⟨r, -, e⟩ | ⟨r, -, e⟩ | ⟨w, r, -, -, hw, e⟩ | ⟨w, r, -, -, e⟩ <;>
    rw [e] at ht <;> cases ht
  · exact h.requestRecv
  · exact h.requestRecv
  · exact h.requestRecv
  · exact h.requestRecv.fillScratch (by simpa [State.requestRecv_eq] using hw)

theorem turn_sound {c : Nat} {t : State} (ht : turn c s = .returned t ∨ turn c s = .waits t ∨ turn c s = .again t) :
    t.Sound := by
  have e := turn_effect c s
  rcases ht with ht | ht | ht <;> rw [ht] at e <;> cases e
  case delivers =>
    obtain ⟨-, -, ⟨-, -, -, wo, -⟩, -⟩ := id h
    exact (h.setOut (Memory.wf_writeSeq wo 0 _)).decoderReset
  case tooSmall => exact h.decoderReset
  case overflows b r hq _ => exact (h.dropOldest hq).decoderReset
  case refills w r _ _ hw => exact (State.Sound.fillScratch (s := s.asked.takeAnswer r) h hw).queuePush w
  case decodes b r hq hd =>
    have hb := (h.dropOldest hq).decodeByte b
    rwa [hd] at hb
  case swallows b r hq _ => exact (h.dropOldest hq).clearIdx
  all_goals exact h

end

theorem runReceive_sound {c : Nat} {s t : State} (hs : s.Sound) (h : runReceive c s = .next t) : t.Sound :=
  runReceive_keeps (fun _ _ hs ht => turn_sound hs (.inl ht)) (fun _ _ hs ht => turn_sound hs (.inr (.inl ht)))
    (fun _ _ hs ht => turn_sound hs (.inr (.inr ht))) hs h

theorem exec_sound {s t : State} {i : Instr} (hs : s.Sound) (h : exec i s = .next t) : t.Sound := by
  cases i with
  | wireEnd | wireEsc | wireData _ | decByte _ => exact feed_sound hs h
  | seqEscEnd | seqEscEsc | seqEsc11 | seqEsc13 | seqBad _ => exact feedPair_sound hs h
  | rawC0 | rawDB | raw11 | raw13 | rawOther _ => exact rawStep_sound hs h
  | encode _ => exact execEncode_sound hs h
  | decReset => cases h; exact hs.decoderReset
  | rxReceiveFrame c => exact runReceive_sound (s := { s with rx := some c }) hs h
  | qPush w => cases h; exact hs.queuePush w
  | qPop => obtain ⟨_, _, hq, rfl⟩ := execQPop_next h; exact hs.dropOldest hq
  | qReset => cases h; exact hs.setQueue (Nat.zero_le _)
  | recv => exact execRecv_sound hs h
  | cmdReserved0 | cmdReserved7 | cmdReserved8F _ | stNever67 _ => cases h
  | _ => cases h; exact hs

/-- Settles O57: `exec_sound`, one lemma for each meaning. -/
theorem everyInstructionKeepsTheStateSound : Obligations.EveryInstructionKeepsTheStateSound :=
  fun _ _ _ => exec_sound

end Sys2Proof.Machine
end

section
/-! The units do not touch each other (R27, R104): what each meaning leaves of the units that are not its own, then, unit
by unit, every instruction that leaves it. -/

namespace Sys2Proof.Machine

open Sys2Proof.Claims

/-- `DEC_BYTE` touches the Decoder only (R61). -/
theorem feed_frame {s t : State} {b : Byte} (h : feed b s = .next t) :
    t.encWidx = s.encWidx ∧ t.obuf = s.obuf ∧ t.q = s.q ∧ t.scratch = s.scratch ∧ t.out = s.out ∧
      t.recvIn = s.recvIn := by
  obtain ⟨-, rfl⟩ := feed_next h
  simp

theorem feedPair_frame {s t : State} {b c : Byte} (h : feedPair b c s = .next t) :
    t.encWidx = s.encWidx ∧ t.obuf = s.obuf ∧ t.q = s.q ∧ t.scratch = s.scratch ∧ t.out = s.out ∧
      t.recvIn = s.recvIn := by
  obtain ⟨u, hb, hc⟩ := feedPair_next h
  simp [feed_frame hb, feed_frame hc]

/-- A raw byte touches the Encoder only (R42, R57). -/
theorem rawStep_frame {s t : State} {b : Byte} (h : rawStep b s = .next t) :
    (t.decIdx = s.decIdx ∧ t.decHasFrame = s.decHasFrame ∧ t.decState = s.decState ∧ t.dbuf = s.dbuf) ∧
      t.q = s.q ∧ t.scratch = s.scratch ∧ t.out = s.out ∧ t.recvIn = s.recvIn := by
  rw [rawStep_eq] at h
  split at h <;> cases h <;> simp

/-- `ENCODE` touches the Encoder only (R54, R56). -/
theorem execEncode_frame {s t : State} {p : List Byte} (h : execEncode p s = .next t) :
    (t.decIdx = s.decIdx ∧ t.decHasFrame = s.decHasFrame ∧ t.decState = s.decState ∧ t.dbuf = s.dbuf) ∧
      t.q = s.q ∧ t.scratch = s.scratch ∧ t.out = s.out ∧ t.recvIn = s.recvIn := by
  rw [execEncode_eq] at h
  split at h <;> cases h <;> simp

/-- `recv` by itself fills `SCRATCH` and pushes nothing (R83). -/
theorem execRecv_frame {s t : State} (h : execRecv s = .next t) :
    t.encWidx = s.encWidx ∧ t.obuf = s.obuf ∧ t.q = s.q ∧ t.out = s.out := by
  rcases execRecv_next h with rfl | ⟨a, r, rfl⟩ | ⟨w, r, rfl⟩ <;> simp [State.requestRecv_eq]

/-- The Encoder is written by `ENCODE` and the raw-byte rows alone (R104). -/
theorem exec_encoder_frame {s t : State} {i : Instr} (h : exec i s = .next t) (hr : (rawByteOf i).isNone = true)
    (he : ∀ p, i ≠ .encode p) : t.encWidx = s.encWidx ∧ t.obuf = s.obuf := by
  cases i with
  | wireEnd | wireEsc | wireData _ | decByte _ => simp [feed_frame h]
  | seqEscEnd | seqEscEsc | seqEsc11 | seqEsc13 | seqBad _ => simp [feedPair_frame h]
  | rawC0 | rawDB | raw11 | raw13 | rawOther _ => cases hr
  | encode p => exact absurd rfl (he p)
  | rxReceiveFrame _ => simp [runReceive_frame h]
  | qPop => obtain ⟨_, _, _, rfl⟩ := execQPop_next h; exact ⟨rfl, rfl⟩
  | recv => simp [execRecv_frame h]
  | cmdReserved0 | cmdReserved7 | cmdReserved8F _ | stNever67 _ => cases h
  | _ => cases h; exact ⟨rfl, rfl⟩

/-- The Encoder's own rows leave the Decoder (R27). -/
theorem exec_decoder_frame {s t : State} {i : Instr} (h : exec i s = .next t)
    (hi : (rawByteOf i).isSome = true ∨ ∃ p, i = .encode p) :
    t.decIdx = s.decIdx ∧ t.decHasFrame = s.decHasFrame ∧ t.decState = s.decState ∧ t.dbuf = s.dbuf := by
  cases i with
  | rawC0 | rawDB | raw11 | raw13 | rawOther _ => exact (rawStep_frame h).1
  | encode _ => exact (execEncode_frame h).1
  | _ => simp [rawByteOf] at hi

/-- `OUT` is written by `RX_RECEIVE_FRAME` alone (R104). -/
theorem exec_out_frame {s t : State} {i : Instr} (h : exec i s = .next t) (hr : ∀ c, i ≠ .rxReceiveFrame c) :
    t.out = s.out := by
  cases i with
  | wireEnd | wireEsc | wireData _ | decByte _ => simp [feed_frame h]
  | seqEscEnd | seqEscEsc | seqEsc11 | seqEsc13 | seqBad _ => simp [feedPair_frame h]
  | rawC0 | rawDB | raw11 | raw13 | rawOther _ => simp [rawStep_frame h]
  | encode _ => simp [execEncode_frame h]
  | rxReceiveFrame c => exact absurd rfl (hr c)
  | qPop => obtain ⟨_, _, _, rfl⟩ := execQPop_next h; rfl
  | recv => simp [execRecv_frame h]
  | cmdReserved0 | cmdReserved7 | cmdReserved8F _ | stNever67 _ => cases h
  | _ => cases h; rfl

/-- The queue is written by the Receiver and the three queue operations that change it (R80). -/
theorem exec_queue_frame {s t : State} {i : Instr} (h : exec i s = .next t) (hr : ∀ c, i ≠ .rxReceiveFrame c)
    (hpush : ∀ w, i ≠ .qPush w) (hpop : i ≠ .qPop) (hreset : i ≠ .qReset) : t.q = s.q := by
  cases i with
  | wireEnd | wireEsc | wireData _ | decByte _ => simp [feed_frame h]
  | seqEscEnd | seqEscEsc | seqEsc11 | seqEsc13 | seqBad _ => simp [feedPair_frame h]
  | rawC0 | rawDB | raw11 | raw13 | rawOther _ => simp [rawStep_frame h]
  | encode _ => simp [execEncode_frame h]
  | rxReceiveFrame c => exact absurd rfl (hr c)
  | qPush w => exact absurd rfl (hpush w)
  | qPop => exact absurd rfl hpop
  | qReset => exact absurd rfl hreset
  | recv => simp [execRecv_frame h]
  | cmdReserved0 | cmdReserved7 | cmdReserved8F _ | stNever67 _ => cases h
  | _ => cases h; rfl

/-- `SCRATCH` is written, and an answer of the transport taken, by the Receiver and `recv` alone (R83, R86). -/
theorem exec_transport_frame {s t : State} {i : Instr} (h : exec i s = .next t) (hr : ∀ c, i ≠ .rxReceiveFrame c)
    (hrecv : i ≠ .recv) : t.scratch = s.scratch ∧ t.recvIn = s.recvIn := by
  cases i with
  | wireEnd | wireEsc | wireData _ | decByte _ => simp [feed_frame h]
  | seqEscEnd | seqEscEsc | seqEsc11 | seqEsc13 | seqBad _ => simp [feedPair_frame h]
  | rawC0 | rawDB | raw11 | raw13 | rawOther _ => simp [rawStep_frame h]
  | encode _ => simp [execEncode_frame h]
  | rxReceiveFrame c => exact absurd rfl (hr c)
  | qPop => obtain ⟨_, _, _, rfl⟩ := execQPop_next h; exact ⟨rfl, rfl⟩
  | recv => exact absurd rfl hrecv
  | cmdReserved0 | cmdReserved7 | cmdReserved8F _ | stNever67 _ => cases h
  | _ => cases h; exact ⟨rfl, rfl⟩

/-- Settles O56: one frame lemma for each unit. -/
theorem unitsDoNotTouchEachOther : Obligations.UnitsDoNotTouchEachOther := by
  intro s t i h
  exact ⟨fun ⟨hr, he⟩ => exec_encoder_frame h hr he, exec_decoder_frame h, exec_out_frame h, exec_queue_frame h,
    exec_transport_frame h⟩

end Sys2Proof.Machine
end

section
/-! How the line is cut into answers does not matter (R30, R33): a receiver is compared with the one that has the whole
line in its queue, turn by turn. A refill changes nothing in that comparison; every other turn acts on both alike. -/

namespace Sys2Proof.Machine

open Sys2Proof.Claims

/-- The receiver with every byte ahead of it in the queue, and without what a cut of the line leaves behind besides:
what lies in `SCRATCH`, and the requests and samples observed. Two receivers with the same `uncut` differ in the cut
only. -/
def State.uncut (s : State) : State :=
  { s with q := stream s, recvIn := [], scratch := Memory.unspecified, trace := [] }

/-- With one queue for the whole line there is nothing left to undo. -/
theorem State.uncut_uncut (s : State) : s.uncut.uncut = s.uncut := by
  simp [State.uncut, stream]

/-- The end of a turn, its state `uncut`. -/
def Turn.uncut : Turn → Turn
  | .returned s => .returned s.uncut
  | .waits s    => .waits s.uncut
  | .again s    => .again s.uncut
  | .refuses r  => .refuses r

/-- A receiver that only the line disturbs: no cancel request, no request outstanding, and every answer to come is data
within the transport's obligation, which an empty queue can take (R7, R83, R84). -/
structure State.Quiet (s : State) : Prop where
  fits : s.cfg.scratchSize ≤ s.cfg.qCap
  noCancel : s.cancelReq = false
  noCancelIn : s.cancelIn = []
  notPending : s.recvPending = false
  answers : ∀ a ∈ s.recvIn, ∃ w, a = .data w ∧ 1 ≤ w.length ∧ w.length ≤ s.cfg.scratchSize

/-- The next turn is no refill that brings data. -/
def State.Ready (s : State) : Prop := s.decHasFrame = true ∨ s.q ≠ [] ∨ s.recvIn = []

theorem State.Quiet.of_data {s : State} {ws : List (List Byte)} (hS : s.cfg.scratchSize ≤ s.cfg.qCap)
    (hc : s.cancelReq = false) (hci : s.cancelIn = []) (hp : s.recvPending = false) (hr : s.recvIn = ws.map .data)
    (hws : ∀ w ∈ ws, 1 ≤ w.length ∧ w.length ≤ s.cfg.scratchSize) : s.Quiet := by
  refine ⟨hS, hc, hci, hp, fun a ha => ?_⟩
  obtain ⟨w, hw, rfl⟩ := List.mem_map.1 (hr ▸ ha)
  exact ⟨w, rfl, hws w hw⟩

theorem State.Quiet.congr {s t : State} (h : s.Quiet)
    (he : t.cfg = s.cfg ∧ t.cancelReq = s.cancelReq ∧ t.cancelIn = s.cancelIn ∧ t.recvPending = s.recvPending ∧
      t.recvIn = s.recvIn) : t.Quiet := by
  obtain ⟨h1, h2, h3, h4, h5⟩ := h
  obtain ⟨e1, e2, e3, e4, e5⟩ := he
  constructor <;> simpa only [e1, e2, e3, e4, e5]

theorem State.Quiet.cancelLevel {s : State} (h : s.Quiet) : s.cancelLevel = false := by
  simp [State.cancelLevel, h.noCancelIn, h.noCancel]

/-- The sample that precedes the request leaves the cancel input of a quiet receiver as it is (R84). -/
theorem State.Quiet.asked_fields {s : State} (h : s.Quiet) :
    s.asked.cancelReq = s.cancelReq ∧ s.asked.cancelIn = s.cancelIn := by
  simp [State.asked, h.cancelLevel, h.noCancel, h.noCancelIn]

/-- Nor does asking move the line. -/
theorem State.Quiet.asked_uncut {s : State} (h : s.Quiet) :
    s.asked.uncut = { s.uncut with recvPending := true } := by
  simp [State.uncut, stream, h.asked_fields]

theorem State.Quiet.uncut {s : State} (h : s.Quiet) : s.uncut.Quiet :=
  ⟨h.fits, h.noCancel, h.noCancelIn, h.notPending, by simp [State.uncut]⟩

/-- A quiet receiver stays quiet. -/
theorem State.Quiet.turn_again {c : Nat} {s t : State} (h : s.Quiet) (ht : turn c s = .again t) : t.Quiet := by
  have e := turn_effect c s
  rw [ht] at e
  cases e with
  | retries hf hq hl r hr => simpa using h.answers .noData (by simp [hr])
  | refills hf hq hl w r hr =>
    obtain ⟨hac, haci⟩ := h.asked_fields
    exact ⟨h.fits, hac.trans h.noCancel, haci.trans h.noCancelIn, rfl,
      fun a har => h.answers a (hr ▸ List.mem_cons_of_mem _ har)⟩
  | decodes hf b r hq _ hd =>
    have hb := (s.setQueue r).decodeByte_fields b
    rw [hd] at hb
    exact h.congr (by simp_all)
  | swallows => exact h.congr (by simp)

/-- A refill moves bytes from the transport to the queue, and the line ahead stays as it is (R86, R88). -/
theorem State.Quiet.turn_refill {s : State} (h : s.Quiet) (hn : ¬s.Ready) (c : Nat) :
    ∃ t, turn c s = .again t ∧ t.uncut = s.uncut ∧ t.Ready := by
  simp only [State.Ready, not_or, Bool.not_eq_true, not_not] at hn
  obtain ⟨hf, hq, hr⟩ := hn
  obtain ⟨a, r, hr⟩ := List.exists_cons_of_ne_nil hr
  obtain ⟨w, rfl, hw1, hw2⟩ := h.answers a (by simp [hr])
  have hpush : w.foldl (pushByte s.cfg.qCap) [] = w := by
    have hfit := h.fits
    simpa using foldl_pushByte_of_fits (cap := s.cfg.qCap) (q := []) w (by simp; omega)
  refine ⟨_, turn_refills hf hq (.inr h.cancelLevel) hr hw1 hw2, ?_, .inr (.inl ?_)⟩
  · simp [State.uncut, stream, answerBytes, h.asked_fields, hq, hr, hpush, h.notPending]
  · simpa [hq, hpush] using List.ne_nil_of_length_pos hw1

/-- Every run of a quiet receiver is that of a ready one that differs in the cut only. -/
theorem State.Quiet.exists_ready {s : State} (h : s.Quiet) (c : Nat) :
    ∃ t, t.Quiet ∧ t.Ready ∧ t.uncut = s.uncut ∧ runReceive c t = runReceive c s ∧ t.loopWork ≤ s.loopWork := by
  by_cases hr : s.Ready
  · exact ⟨s, h, hr, rfl, rfl, le_rfl⟩
  · obtain ⟨t, ht, hu, hr⟩ := h.turn_refill hr c
    exact ⟨t, h.turn_again ht, hr, hu, (runReceive_again ht).symm, (turn_work ht).le⟩

/-- Decoding a byte does not look at the line. -/
theorem State.decodeByte_uncut (s : State) (b : Byte) :
    s.uncut.decodeByte b = ((s.decodeByte b).1, (s.decodeByte b).2.uncut) := by
  have hframe := s.decodeByte_frame b
  rw [State.decodeByte_congr (s := s) (t := s.uncut) rfl rfl rfl rfl rfl b]
  generalize s.decodeByte b = r at hframe ⊢
  rw [hframe]
  rfl

/-- Step A does not look at the line (R87). -/
theorem deliver_uncut (c : Nat) (s : State) : (deliver c s.uncut).uncut = (deliver c s).uncut := by
  have hsmall : s.uncut.outTooSmall c = s.outTooSmall c := rfl
  have hlive : s.uncut.dbufLive = s.dbufLive := rfl
  unfold deliver
  rw [hsmall, hlive]
  split <;> simp [Turn.uncut, State.uncut, stream]

/-- Step C looks at the popped byte only (R90). -/
theorem drain_uncut (b : Byte) (s : State) : (drain b s.uncut).uncut = (drain b s).uncut := by
  unfold drain
  rw [State.decodeByte_uncut]
  generalize s.decodeByte b = r
  obtain ⟨st, t⟩ := r
  cases st <;> simp [Turn.uncut, stream, State.uncut]

/-- A turn of a ready receiver depends on the line ahead, not on its cut. -/
theorem turn_uncut {c : Nat} {s : State} (h : s.Quiet) (hr : s.Ready) :
    (turn c s.uncut).uncut = (turn c s).uncut := by
  cases hf : s.decHasFrame with
  | true =>
    have hf' : s.uncut.decHasFrame = true := hf
    simp only [turn, hf, hf', if_true]
    exact deliver_uncut c s
  | false =>
    have hf' : s.uncut.decHasFrame = false := hf
    cases hq : s.q with
    | cons b r =>
      have hq' : s.uncut.q = b :: stream (s.setQueue r) := by simp [State.uncut, stream, hq]
      rw [turn_drains hf hq, turn_drains hf' hq', ← drain_uncut b (s.setQueue r)]
      rfl
    | nil =>
      have hi : s.recvIn = [] := by simpa [State.Ready, hf, hq] using hr
      have hq' : s.uncut.q = [] := by simp [State.uncut, stream, hq, hi]
      rw [turn_waits hf hq (.inr h.cancelLevel) hi, turn_waits hf' hq' (.inr h.cancelLevel) rfl]
      simp only [Turn.uncut, h.asked_uncut, h.uncut.asked_uncut, State.uncut_uncut]

/-- What a run that answers next did first (R86). -/
theorem runReceive_next {c : Nat} {s t : State} (h : runReceive c s = .next t) :
    turn c s = .returned t ∨ turn c s = .waits t ∨ ∃ u, turn c s = .again u ∧ runReceive c u = .next t := by
  rw [runReceive_eq] at h
  cases hu : turn c s <;> rw [hu] at h
  case returned => cases h; exact .inl rfl
  case waits => cases h; exact .inr (.inl rfl)
  case again u => exact .inr (.inr ⟨u, rfl, h⟩)
  case refuses => cases h

/-- Two quiet receivers that differ in the cut only end in states that differ in the cut only: once both are ready their
turns end alike, and the two left where both turns are followed by another differ in the cut only again. -/
theorem runReceive_uncut {c : Nat} {s t s' t' : State} (hs : s.Quiet) (ht : t.Quiet) (he : s.uncut = t.uncut)
    (hs' : runReceive c s = .next s') (ht' : runReceive c t = .next t') : s'.uncut = t'.uncut := by
  induction hn : s.loopWork using Nat.strong_induction_on generalizing s t with
  | _ n ih =>
    obtain ⟨u, hu, hur, hue, hus, hun⟩ := hs.exists_ready c
    obtain ⟨v, hv, hvr, hve, hvt, -⟩ := ht.exists_ready c
    have hturn : (turn c u).uncut = (turn c v).uncut := by
      rw [← turn_uncut hu hur, ← turn_uncut hv hvr, hue, hve, he]
    rcases runReceive_next (hus.trans hs') with h1 | h1 | ⟨u', h1, hu'⟩ <;>
      rcases runReceive_next (hvt.trans ht') with h2 | h2 | ⟨v', h2, hv'⟩ <;>
      simp only [h1, h2, Turn.uncut, Turn.returned.injEq, Turn.waits.injEq, Turn.again.injEq, reduceCtorEq] at hturn
    · exact hturn
    · exact hturn
    · exact ih _ (by have := turn_work h1; omega) (hu.turn_again h1) (hv.turn_again h2) hturn hu' hv' rfl

/-- Settles O50: `runReceive_uncut`, read field by field. -/
theorem chunkingOfTheLineDoesNotMatter : Obligations.ChunkingOfTheLineDoesNotMatter := by
  rintro s t s' t' c us ws q ⟨-, -, hcap, -⟩ hus hws hc hci hp hr rfl hline hs ht
  have hsq : State.Quiet { s with rx := some c } := .of_data hcap hc hci hp hr hus
  have htq : State.Quiet { s with q := q, recvIn := ws.map .data, rx := some c } := .of_data hcap hc hci hp rfl hws
  have he : State.uncut { s with rx := some c } =
      State.uncut { s with q := q, recvIn := ws.map .data, rx := some c } :=
    congrArg (fun line => { State.uncut { s with rx := some c } with q := line }) hline
  have h : s'.uncut = t'.uncut := runReceive_uncut hsq htq he hs ht
  have field {α : Type} (f : State → α) : f s'.uncut = f t'.uncut := congrArg f h
  exact ⟨field State.rx, field State.resp, field State.out, field State.decIdx, field State.decHasFrame,
    field State.decState, field State.dbuf, field State.q⟩

end Sys2Proof.Machine
end

section
/-! The decoder and the encoder (30_encoding.md): what the reader of each format reads from a byte or a number, that
it is well-formed, and what the encoder makes of it again. -/

namespace Sys2Proof

open Sys2Proof.Machine Sys2Proof.Claims

/-! The constraint of each row that has one (R41, R43, R45, R51). -/

section
variable {c : Config}

@[simp] theorem wellFormed_wireData {b : Byte} : WellFormed c (.wireData b) ↔ cls b = .other := by
  simp [WellFormed, wfCheck]

@[simp] theorem wellFormed_seqEsc11 : WellFormed c .seqEsc11 ↔ c.variant = .threeWire := by
  simp [WellFormed, wfCheck]

@[simp] theorem wellFormed_seqEsc13 : WellFormed c .seqEsc13 ↔ c.variant = .threeWire := by
  simp [WellFormed, wfCheck]

@[simp] theorem wellFormed_raw11 : WellFormed c .raw11 ↔ c.variant = .threeWire := by
  simp [WellFormed, wfCheck]

@[simp] theorem wellFormed_raw13 : WellFormed c .raw13 ↔ c.variant = .threeWire := by
  simp [WellFormed, wfCheck]

@[simp] theorem wellFormed_seqBad {s : Byte} : WellFormed c (.seqBad s) ↔ unesc c.variant s = none := by
  simp [WellFormed, wfCheck]

@[simp] theorem wellFormed_rawOther {b : Byte} : WellFormed c (.rawOther b) ↔ reserved c.variant b = false := by
  simp [WellFormed, wfCheck]

@[simp] theorem wellFormed_encode {p : List Byte} : WellFormed c (.encode p) ↔ p.length < 2 ^ c.lenW := by
  simp [WellFormed, wfCheck]

@[simp] theorem wellFormed_rxReceiveFrame {n : Nat} : WellFormed c (.rxReceiveFrame n) ↔ n < 2 ^ c.lenW := by
  simp [WellFormed, wfCheck]

end

/-! One byte as a symbol, as a second byte, as a raw byte: each reader gives back the data byte of a well-formed row,
gives well-formed rows only, and the encoder undoes it (R41, R43, R45). -/

theorem decodeWireByte_of_other {b : Byte} (h : cls b = .other) : decodeWireByte b = .wireData b := by
  simp [decodeWireByte, h]

theorem decodeSecond_of_undesignated {v : Variant} {s : Byte} (h : unesc v s = none) :
    decodeSecond v s = .seqBad s := by
  unfold unesc at h
  unfold decodeSecond
  split_ifs at h ⊢
  rfl

theorem decodeRaw_of_unreserved {v : Variant} {b : Byte} (h : reserved v b = false) : decodeRaw v b = .rawOther b := by
  unfold reserved escSecond at h
  unfold decodeRaw
  split_ifs at h ⊢
  · cases h
  · cases h
  · cases h
  · cases h
  · rfl

theorem wellFormed_decodeWireByte (c : Config) (b : Byte) : WellFormed c (decodeWireByte b) := by
  unfold decodeWireByte
  split
  · rfl
  · rfl
  · exact wellFormed_wireData.2 ‹_›

theorem wellFormed_decodeSecond (c : Config) (s : Byte) : WellFormed c (decodeSecond c.variant s) := by
  unfold decodeSecond
  split_ifs with h1 h2 h3 h4
  · rfl
  · rfl
  · exact wellFormed_seqEsc11.2 h3.2
  · exact wellFormed_seqEsc13.2 h4.2
  · exact wellFormed_seqBad.2 (by simp [unesc, h1, h2, h3, h4])

theorem wellFormed_decodeRaw (c : Config) (b : Byte) : WellFormed c (decodeRaw c.variant b) := by
  unfold decodeRaw
  split_ifs with h1 h2 h3 h4
  · rfl
  · rfl
  · exact wellFormed_raw11.2 h3.2
  · exact wellFormed_raw13.2 h4.2
  · exact wellFormed_rawOther.2 (by simp [reserved, escSecond, h1, h2, h3, h4])

theorem wellFormed_decodeCall (c : Config) (op : InternalOp) : WellFormed c (decodeCall op) := by
  cases op <;> rfl

theorem encode_decodeWireByte (b : Byte) : encode (decodeWireByte b) = bare .wireByte (b.setWidth 16) := by
  unfold decodeWireByte
  split <;> rename_i h
  · rw [cls_eq_endMark.1 h]; rfl
  · rw [cls_eq_escMark.1 h]; rfl
  · rfl

theorem encode_decodeSecond (v : Variant) (s : Byte) : encode (decodeSecond v s) = bare .wirePair (0xDB#8 ++ s) := by
  unfold decodeSecond
  split_ifs with h1 h2 h3 h4
  · rw [h1]; rfl
  · rw [h2]; rfl
  · rw [h3.1]; rfl
  · rw [h4.1]; rfl
  · rfl

theorem encode_decodeRaw (v : Variant) (b : Byte) : encode (decodeRaw v b) = bare .rawByte (b.setWidth 16) := by
  unfold decodeRaw
  split_ifs with h1 h2 h3 h4
  · rw [h1]; rfl
  · rw [h2]; rfl
  · rw [h3.1]; rfl
  · rw [h4.1]; rfl
  · rfl

theorem encode_decodeCall (op : InternalOp) : encode (decodeCall op) = .call op := by
  cases op <;> rfl

/-! Only a command names an operand port (R51). -/

theorem namedOperands_decodeWireByte (b : Byte) (ops : Operands) :
    namedOperands (decodeWireByte b) ops = Operands.zero := by
  unfold decodeWireByte
  split <;> rfl

theorem namedOperands_decodeSecond (v : Variant) (s : Byte) (ops : Operands) :
    namedOperands (decodeSecond v s) ops = Operands.zero := by
  unfold decodeSecond
  split_ifs <;> rfl

theorem namedOperands_decodeRaw (v : Variant) (b : Byte) (ops : Operands) :
    namedOperands (decodeRaw v b) ops = Operands.zero := by
  unfold decodeRaw
  split_ifs <;> rfl

/-! The ports of the byte formats, from the byte or the pair they carry. -/

theorem decode_wireByte (c : Config) (b : Byte) (ops : Operands) :
    decode c (.coded .wireByte (b.setWidth 16) ops) = .instr (decodeWireByte b) := by
  have hb : (b.setWidth 16).setWidth 8 = b := BitVec.setWidth_setWidth_of_le b (by decide)
  simp only [decode, hb]
  exact if_pos (Laws.CodeFits.setWidth_byte_lt b)

theorem decode_rawByte (c : Config) (b : Byte) (ops : Operands) :
    decode c (.coded .rawByte (b.setWidth 16) ops) = .instr (decodeRaw c.variant b) := by
  have hb : (b.setWidth 16).setWidth 8 = b := BitVec.setWidth_setWidth_of_le b (by decide)
  simp only [decode, hb]
  exact if_pos (Laws.CodeFits.setWidth_byte_lt b)

theorem decode_wirePair (c : Config) (a s : Byte) (ops : Operands) :
    decode c (.coded .wirePair (a ++ s) ops) =
      if a = 0xDB#8 then .instr (decodeSecond c.variant s) else .reject .notAnEscapePair := by
  have ha : (a ++ s).extractLsb' 8 8 = a := BitVec.extractLsb'_append_eq_left
  have hs : (a ++ s).setWidth 8 = s := BitVec.setWidth_append_eq_right
  simp only [decode, ha, hs]

/-! The codes above the last one that a reader names: 8 to 15 are `CMD_RESERVED_8_F`, whose operand is the code's low
bits (R49); the rest are too wide. -/

theorem decodeCmd_of_ge (c : Config) {n : Nat} (h : 8 ≤ n) (ops : Operands) :
    decodeCmd c n ops =
      if n < 16 then .instr (.cmdReserved8F (BitVec.ofNat 3 n)) else .reject (.codeTooWide .cmd4) := by
  obtain ⟨k, rfl⟩ := Nat.exists_eq_add_of_le' h
  rfl

theorem decodeStatus_of_ge {n : Nat} (h : 8 ≤ n) : decodeStatus n = .reject (.codeTooWide .status3) := by
  obtain ⟨k, rfl⟩ := Nat.exists_eq_add_of_le' h
  rfl

theorem decodeState_of_ge {n : Nat} (h : 4 ≤ n) : decodeState n = .reject (.codeTooWide .state2) := by
  obtain ⟨k, rfl⟩ := Nat.exists_eq_add_of_le' h
  rfl

/-- The code of `CMD_RESERVED_8_F` is 8 to 15, and its low bits are the operand. -/
theorem cmdReserved8F_code (x : BitVec 3) :
    8 ≤ (0x8#16 ||| x.setWidth 16).toNat ∧ (0x8#16 ||| x.setWidth 16).toNat < 16 ∧
      BitVec.ofNat 3 (0x8#16 ||| x.setWidth 16).toNat = x := by
  revert x
  decide

theorem encode_cmdReserved8F {n : Nat} (h8 : 8 ≤ n) (h16 : n < 16) :
    encode (.cmdReserved8F (BitVec.ofNat 3 n)) = bare .cmd4 (BitVec.ofNat 16 n) := by
  interval_cases n <;> rfl

/-- Settles O6: the byte rows by the reader of their format, whose exception is the row's own constraint, the two rows
with a length by its bound, and a row of fixed code by evaluation. -/
theorem decodeUndoesEncode : Obligations.DecodeUndoesEncode := by
  intro c i h
  cases i with
  | wireData b =>
    exact (decode_wireByte c b _).trans (by rw [decodeWireByte_of_other (wellFormed_wireData.1 h)])
  | seqBad s =>
    exact (decode_wirePair c 0xDB#8 s _).trans (by
      rw [if_pos rfl, decodeSecond_of_undesignated (wellFormed_seqBad.1 h)])
  | rawOther b =>
    exact (decode_rawByte c b _).trans (by rw [decodeRaw_of_unreserved (wellFormed_rawOther.1 h)])
  | seqEsc11 | seqEsc13 | raw11 | raw13 =>
    have hv : c.variant = .threeWire := by simpa using h
    simp [encode, bare, decode, decodeSecond, decodeRaw, hv]
  | encode p => exact if_pos (wellFormed_encode.1 h)
  | rxReceiveFrame n => exact if_pos (wellFormed_rxReceiveFrame.1 h)
  | cmdReserved8F x =>
    obtain ⟨h8, h16, hx⟩ := cmdReserved8F_code x
    exact (decodeCmd_of_ge c h8 _).trans (by rw [if_pos h16, hx])
  | stNever67 x => rcases BitVec.eq_zero_or_eq_one x with rfl | rfl <;> rfl
  | _ => rfl

/-! What each port reads, the other way round: the instruction is well-formed and the encoder makes the code again. -/

section
variable {c : Config} {ops : Operands} {i : Instr}

theorem decodeCmd_instr {n : Nat} (h : decodeCmd c n ops = .instr i) :
    WellFormed c i ∧ encode i = .coded .cmd4 (BitVec.ofNat 16 n) (namedOperands i ops) := by
  unfold decodeCmd at h
  split at h
  case h_2 | h_7 =>
    split at h <;> cases h
    exact ⟨if_pos ‹_›, rfl⟩
  case h_9 =>
    split at h <;> cases h
    exact ⟨rfl, encode_cmdReserved8F (by grind) ‹_›⟩
  all_goals cases h; exact ⟨rfl, rfl⟩

theorem decodeStatus_instr {n : Nat} (h : decodeStatus n = .instr i) :
    WellFormed c i ∧ encode i = .coded .status3 (BitVec.ofNat 16 n) (namedOperands i ops) := by
  unfold decodeStatus at h
  split at h <;> cases h <;> exact ⟨rfl, rfl⟩

theorem decodeState_instr {n : Nat} (h : decodeState n = .instr i) :
    WellFormed c i ∧ encode i = .coded .state2 (BitVec.ofNat 16 n) (namedOperands i ops) := by
  unfold decodeState at h
  split at h <;> cases h <;> exact ⟨rfl, rfl⟩

/-- A code below 2^8 is its low byte, widened. -/
theorem setWidth_setWidth_byte {code : BitVec 16} (h : code.toNat < 256) : (code.setWidth 8).setWidth 16 = code := by
  apply BitVec.eq_of_toNat_eq
  simp only [BitVec.toNat_setWidth]
  omega

/-- A pair is its two bytes, the first on the wire in bits 15..8 (R46). -/
theorem eq_append_bytes (code : BitVec 16) : code = code.extractLsb' 8 8 ++ code.setWidth 8 := by
  apply BitVec.eq_of_getLsbD_eq
  intro j hj
  simp only [BitVec.getLsbD_append, BitVec.getLsbD_setWidth, BitVec.getLsbD_extractLsb']
  split
  · simp [*]
  · have h1 : j - 8 < 8 := by omega
    have h2 : 8 + (j - 8) = j := by omega
    simp [h1, h2]

theorem decode_coded_instr {f : Fmt} {code : BitVec 16} (h : decode c (.coded f code ops) = .instr i) :
    WellFormed c i ∧ encode i = .coded f code (namedOperands i ops) := by
  cases f with
  | cmd4 => simpa using decodeCmd_instr h
  | status3 => simpa using decodeStatus_instr (c := c) (ops := ops) h
  | state2 => simpa using decodeState_instr (c := c) (ops := ops) h
  | wireByte =>
    simp only [decode] at h
    split at h <;> cases h
    rw [namedOperands_decodeWireByte, encode_decodeWireByte, setWidth_setWidth_byte ‹_›]
    exact ⟨wellFormed_decodeWireByte c _, rfl⟩
  | rawByte =>
    simp only [decode] at h
    split at h <;> cases h
    rw [namedOperands_decodeRaw, encode_decodeRaw, setWidth_setWidth_byte ‹_›]
    exact ⟨wellFormed_decodeRaw c _, rfl⟩
  | wirePair =>
    simp only [decode] at h
    split at h <;> cases h
    rename_i ha
    rw [namedOperands_decodeSecond, encode_decodeSecond, ← ha, ← eq_append_bytes]
    exact ⟨wellFormed_decodeSecond c _, rfl⟩

/-- A bit above the format's width rejects the code; a pair has all sixteen bits. -/
theorem decode_tooWide {f : Fmt} {code : BitVec 16} (h : 2 ^ fmtWidth f ≤ code.toNat) :
    decode c (.coded f code ops) = .reject (.codeTooWide f) := by
  cases f with
  | cmd4 =>
    have h16 : 16 ≤ code.toNat := h
    exact (decodeCmd_of_ge c (by omega) ops).trans (if_neg (Nat.not_lt.2 h16))
  | status3 => exact decodeStatus_of_ge h
  | state2 => exact decodeState_of_ge h
  | wireByte | rawByte => exact if_neg (Nat.not_lt.2 h)
  | wirePair => exact absurd code.isLt (Nat.not_lt.2 h)

end

/-- Settles O7: `decode_coded_instr` for a code, `wellFormed_decodeCall` for an operation called by name, and one
rejection for each range of operands that no row has. -/
theorem decodedIsWellFormed : Obligations.DecodedIsWellFormed := by
  intro c
  refine ⟨fun x i h => ?_, fun f code ops i h => (decode_coded_instr h).2, ?_, fun f code ops => decode_tooWide,
    fun a s ops ha => (decode_wirePair c a s ops).trans (if_neg ha), fun ops h => if_neg (Nat.not_lt.2 h),
    fun ops h => if_neg (Nat.not_lt.2 h)⟩
  · cases x with
    | coded f code ops => exact (decode_coded_instr h).1
    | call op => cases h; exact wellFormed_decodeCall c op
  · rintro op i ⟨⟩
    exact encode_decodeCall op

end Sys2Proof
end

section
/-! The escape table (R41 to R44), and the stream of a frame read symbol by symbol (R46). -/

namespace Sys2Proof.Machine

/-- `esc`, row by row (R42). -/
theorem esc_eq (v : Variant) (b : Byte) :
    esc v b =
      if b = 0xC0#8 then [0xDB#8, 0xDC#8]
      else if b = 0xDB#8 then [0xDB#8, 0xDD#8]
      else if b = 0x11#8 ∧ v = .threeWire then [0xDB#8, 0xDE#8]
      else if b = 0x13#8 ∧ v = .threeWire then [0xDB#8, 0xDF#8]
      else [b] := by
  unfold esc escSecond
  split_ifs <;> rfl

/-- Settles O11: `esc_eq`, and `unesc_eq_some`, `esc_eq_pair` and `esc_length` of the model's laws. -/
theorem escapeTableAndItsInverse : Obligations.EscapeTableAndItsInverse := by
  intro v b
  refine ⟨esc_eq v b, fun r => unesc_eq_some.trans esc_eq_pair.symm, ?_⟩
  rw [esc_length]
  split <;> simp [*]

/-- The one reserved byte on the wire is `ESC`: a second byte is none, and neither is a byte that stands for itself. -/
theorem eq_bEsc_of_mem_esc {v : Variant} {b x : Byte} (h : x ∈ esc v b) (hx : reserved v x = true) : x = bEsc := by
  cases hb : escSecond v b with
  | none =>
    rw [esc_of_none hb, List.mem_singleton] at h
    simp [reserved, h, hb] at hx
  | some s =>
    rw [esc_of_some hb] at h
    have hs : reserved v s = false := by
      rcases escSecond_cases hb with ⟨-, rfl⟩ | ⟨-, rfl⟩ | ⟨-, rfl, -⟩ | ⟨-, rfl, -⟩ <;> rfl
    rcases List.mem_pair.1 h with rfl | rfl
    · rfl
    · simp [hs] at hx

theorem not_mem_escapeAll {v : Variant} {x : Byte} (hx : reserved v x = true) (hne : x ≠ bEsc) (p : List Byte) :
    x ∉ escapeAll v p := by
  induction p with
  | nil => exact List.not_mem_nil
  | cons b p ih => exact fun h => (List.mem_append.1 h).elim (fun hb => hne (eq_bEsc_of_mem_esc hb hx)) ih

/-- Settles O12: a pair names its row, and `unesc` undoes the row; what an escaped payload must not hold is reserved,
and not `ESC`. -/
theorem escapesAreInjectiveAndHideTheDelimiter : Obligations.EscapesAreInjectiveAndHideTheDelimiter := by
  refine ⟨fun v a b s ha hb => ?_, fun v p => ⟨not_mem_escapeAll rfl (by decide) p, ?_⟩⟩
  · have ha : unesc v s = some a := unesc_of_escSecond (esc_eq_pair.1 ha)
    have hb : unesc v s = some b := unesc_of_escSecond (esc_eq_pair.1 hb)
    refine ⟨Option.some.inj (ha.symm.trans hb), ?_, ?_, ha⟩ <;> rintro rfl <;> simp at ha
  · rintro rfl
    exact ⟨not_mem_escapeAll rfl (by decide) p, not_mem_escapeAll rfl (by decide) p⟩

/-! The symbols that a frame is read as (R46). -/

theorem wireSymbol_bEnd (v : Variant) (w : List Byte) : wireSymbol v (bEnd :: w) = some (.wireEnd, w) := rfl

/-- The escape sequence of a payload byte is one symbol, whatever follows it. -/
theorem wireSymbol_esc (v : Variant) (b : Byte) (w : List Byte) :
    wireSymbol v (esc v b ++ w) = some (symbolOf v b, w) := by
  cases hb : escSecond v b with
  | none =>
    have hc : cls b = .other := cls_of_escSecond_none hb
    simp [esc_of_none hb, symbolOf, hb, wireSymbol, hc, decodeWireByte]
  | some s => simp [esc_of_some hb, symbolOf, hb, wireSymbol]

theorem wireSymbolsUpTo_escapeAll (v : Variant) (n : Nat) (p w : List Byte) :
    wireSymbolsUpTo v (p.length + n) (escapeAll v p ++ w) = p.map (symbolOf v) ++ wireSymbolsUpTo v n w := by
  induction p with
  | nil => simp
  | cons b p ih =>
    rw [escapeAll_cons, List.append_assoc, List.length_cons, Nat.add_right_comm, wireSymbolsUpTo, wireSymbol_esc]
    simp [ih]

theorem length_le_length_escapeAll (v : Variant) (p : List Byte) : p.length ≤ (escapeAll v p).length := by
  induction p with
  | nil => simp
  | cons b p ih =>
    have hb : 1 ≤ (esc v b).length := by rw [esc_length]; split <;> decide
    simp only [escapeAll_cons, List.length_cons, List.length_append]
    omega

/-- Settles O10: `END`, the payload by `wireSymbolsUpTo_escapeAll`, for which a frame has bytes enough, and `END`. -/
theorem frameIsReadSymbolBySymbol : Obligations.FrameIsReadSymbolBySymbol := by
  intro v p
  obtain ⟨n, hn⟩ := Nat.exists_eq_add_of_le (length_le_length_escapeAll v p)
  have hlen : (frame v p).length = p.length + (n + 1) + 1 := by simp [frame]; omega
  have hend : wireSymbolsUpTo v (n + 1) [bEnd] = [.wireEnd] := by
    rw [wireSymbolsUpTo, wireSymbol_bEnd]
    cases n <;> rfl
  calc wireSymbols v (frame v p)
      = wireSymbolsUpTo v (p.length + (n + 1) + 1) (bEnd :: (escapeAll v p ++ [bEnd])) := by
        rw [wireSymbols, hlen]; rfl
    _ = .wireEnd :: wireSymbolsUpTo v (p.length + (n + 1)) (escapeAll v p ++ [bEnd]) := by
        rw [wireSymbolsUpTo, wireSymbol_bEnd]
    _ = [.wireEnd] ++ p.map (symbolOf v) ++ [.wireEnd] := by
        rw [wireSymbolsUpTo_escapeAll, hend]; rfl

end Sys2Proof.Machine
end

section
/-! The wire pairs (R46, R47), and the payload read back from its frame (R53, R75). -/

namespace Sys2Proof.Machine

open Sys2Proof.Claims

/-- Each wire-pair row is the transaction of its two bytes (R46). -/
theorem exec_of_secondByteOf {i : Instr} {c : Byte} (h : secondByteOf i = some c) (s : State) :
    exec i s = feedPair bEsc c s := by
  cases i with
  | seqEscEnd | seqEscEsc | seqEsc11 | seqEsc13 | seqBad _ => cases h; rfl
  | _ => cases h

/-- Settles O26: by `feedPair_eq` the second byte is accepted where the first was. -/
theorem wirePairIsTwoDecBytes : Obligations.WirePairIsTwoDecBytes := by
  intro s i c hi hf
  obtain ⟨hp, hf'⟩ := feedPair_eq c hf
  exact ⟨_, _, feed_eq _ hf, feed_eq c hf', ((exec_of_secondByteOf hi s).trans hp).trans (feed_eq c hf')⟩

/-- `ESC` while a frame is open (R65, R66). -/
theorem State.decodeByte_bEsc_of_open {s : State} (hs : s.decState = .frameOpen ∨ s.decState = .decoding) :
    s.decodeByte bEsc = (.ok, s.goto .escaping) := by
  rcases hs with hs | hs <;> simp [State.decodeByte, hs]

/-! The second byte of a pair: not designated, or a raw byte that finds `DBUF` full, or one that fits (R67 to R69). -/

theorem State.decodeByte_undesignated {s : State} {c : Byte} (hs : s.decState = .escaping)
    (hc : unesc s.cfg.variant c = none) : s.decodeByte c = (.badEscape, s.dropFrame) := by
  simp [State.decodeByte, hs, hc]

theorem State.decodeByte_designated_full {s : State} {c v : Byte} (hs : s.decState = .escaping)
    (hc : unesc s.cfg.variant c = some v) (hcap : s.decIdx = s.cfg.decCap) : s.decodeByte c = (.overflow, s) := by
  simp [State.decodeByte, hs, hc, State.appendThen_eq, hcap]

theorem State.decodeByte_designated_fits {s : State} {c v : Byte} (hs : s.decState = .escaping)
    (hc : unesc s.cfg.variant c = some v) (hcap : s.decIdx ≠ s.cfg.decCap) :
    s.decodeByte c =
      (.ok, { s with dbuf := Memory.write s.dbuf s.decIdx v, decIdx := s.decIdx + 1, decState := .decoding }) := by
  simp [State.decodeByte, hs, hc, State.appendThen_eq, hcap]

/-- A pair while a frame is open: the second byte is decoded in `Escaping`, after the response to `ESC`. -/
theorem exec_of_secondByteOf_of_open {s : State} {i : Instr} {c : Byte} {r : Status × State}
    (hi : secondByteOf i = some c) (hf : s.decHasFrame = false)
    (hs : s.decState = .frameOpen ∨ s.decState = .decoding)
    (hd : ((s.goto .escaping).respond .ok .none).decodeByte c = r) : exec i s = .next (r.2.respond r.1 .none) := by
  rw [exec_of_secondByteOf hi, (feedPair_eq c hf).1, State.decodeByte_bEsc_of_open hs, ← hd]
  exact feed_eq c hf

/-- Settles O27: `exec_of_secondByteOf_of_open`, and the three cases of the second byte. -/
theorem wirePairInOpenFrame : Obligations.WirePairInOpenFrame := by
  rintro s _ i c hi hf hs rfl
  have hpair {r : Status × State} := exec_of_secondByteOf_of_open (r := r) hi hf hs
  cases hc : unesc s.cfg.variant c with
  | none => exact hpair (State.decodeByte_undesignated rfl hc)
  | some v =>
    by_cases hcap : s.decIdx = s.cfg.decCap
    · simp only [if_pos hcap]
      exact hpair (State.decodeByte_designated_full rfl hc hcap)
    · simp only [if_neg hcap]
      exact hpair (State.decodeByte_designated_fits rfl hc hcap)

/-- `encode(p)` of a frame that fits is the frame (R53, R54). -/
theorem pseudoEncode_of_fits {s : State} {p : List Byte} (h : (frame s.cfg.variant p).length ≤ s.cfg.encCap) :
    pseudoEncode p s = some (frame s.cfg.variant p) := by
  rw [frame_length] at h
  simp only [pseudoEncode, execEncode_eq, if_neg (Nat.not_lt.2 h), State.respond_fields, if_true]
  rw [State.obufLive, ← frame_length]
  exact congrArg some (State.bytesBelow_of_writeSeq rfl)

/-- Bytes that are all accepted and answered `Ok` are what `decode` feeds (R53). -/
theorem Feeds.feedUntilFrame {s t : State} {w : List Byte} (h : Feeds s w t) : feedUntilFrame s w = t := by
  induction h with
  | nil => rfl
  | cons hf hd _ ih => simp only [Machine.feedUntilFrame, hf, hd]; exact ih

/-- `decode` of a payload's frame is the payload, whatever the Decoder had before its reset (R53, R75). -/
theorem pseudoDecode_frame {t : State} {p : List Byte} (hp : 1 ≤ p.length) (hcap : p.length ≤ t.cfg.decCap) :
    pseudoDecode (frame t.cfg.variant p) t = some p := by
  have hfeed := (Feeds.frame hp (s := t.decoderReset) rfl (.inl rfl) rfl hcap).feedUntilFrame
  rw [pseudoDecode, show t.cfg = t.decoderReset.cfg from rfl, hfeed]
  exact congrArg some (State.bytesBelow_of_writeSeq rfl)

/-- Settles O33: the frame is written whole, and read back. -/
theorem decodeOfEncodeIsThePayload : Obligations.DecodeOfEncodeIsThePayload := by
  intro s t p hc hp hcap hfits
  exact ⟨_, pseudoEncode_of_fits hfits, hc ▸ pseudoDecode_frame hp hcap⟩

end Sys2Proof.Machine
end

section
/-! The word the host places, and the rows whose meaning is their table entry: the reserved codes, the raw bytes, the
statuses (R42, R49, R52). -/

namespace Sys2Proof.Machine

open Sys2Proof.Claims

/-- A table word that reads as an instruction is the word of a transaction that decodes to it. -/
theorem decodeTableWord_eq_some {nbits w : Nat} {i : Instr} (h : decodeTableWord nbits w = some i) :
    ∃ x, tableXact nbits w = some x ∧ decode Config.atReset x = .instr i := by
  unfold decodeTableWord at h
  split at h
  · cases h
  · split at h <;> cases h
    exact ⟨_, ‹_›, ‹_›⟩

/-- Settles O5: the word's transaction stands first at the port, so it is the one the step decodes. -/
theorem placedTableWordIsRunNext : Obligations.PlacedTableWordIsRunNext := by
  intro s nbits w i hc hi
  obtain ⟨x, hx, hd⟩ := decodeTableWord_eq_some hi
  have hplace : s.withFetchWord nbits w = { s with hostIn := x :: s.hostIn, rst := false, rx := none } := by
    simp [State.withFetchWord, hx]
  rw [hplace]
  exact step_of_decode_instr rfl rfl rfl (hc ▸ hd)

/-- Settles O8: ten closed words, each read by evaluation. -/
theorem wordsOfTheTableDecode : Obligations.WordsOfTheTableDecode :=
  ⟨rfl, rfl, rfl, rfl, rfl, rfl, rfl, rfl, rfl, rfl⟩

/-- The code of `CMD_RESERVED_8_F` is 8 and its three operand bits (R49). -/
theorem reservedCode_8F :
    ∀ code : BitVec 4, 8 ≤ code.toNat → 0x8#4 ||| (BitVec.ofNat 3 code.toNat).setWidth 4 = code := by
  decide

/-- Settles O9: the three reserved rows by their codes, 0, 7, and 8 to 15. -/
theorem reservedCommandCodesHaveNoStep : Obligations.ReservedCommandCodesHaveNoStep := by
  intro s code ops h
  have hlt : code.toNat < 16 := code.isLt
  have hwide : (code.setWidth 16).toNat = code.toNat := BitVec.toNat_setWidth_of_le (by decide)
  rcases h with rfl | h
  · exact ⟨.cmdReserved0, rfl, rfl⟩
  rcases (show 7 ≤ code.toNat from h).eq_or_lt with h7 | h8
  · obtain rfl : code = 0x7#4 := BitVec.eq_of_toNat_eq h7.symm
    exact ⟨.cmdReserved7, rfl, rfl⟩
  · refine ⟨.cmdReserved8F (BitVec.ofNat 3 code.toNat), ?_, ?_⟩
    · rw [decode, hwide]
      exact (decodeCmd_of_ge s.cfg h8 ops).trans (if_pos hlt)
    · exact congrArg (fun x => Host.Outcome.refused (Refusal.reservedCommand x)) (reservedCode_8F code h8)

/-- Each raw-byte row is the Encoder's step with its byte (R42, R57). -/
theorem exec_of_rawByteOf {i : Instr} {b : Byte} (h : rawByteOf i = some b) (s : State) : exec i s = rawStep b s := by
  cases i with
  | rawC0 | rawDB | raw11 | raw13 | rawOther _ => cases h; rfl
  | _ => cases h

/-- Settles O19: `rawStep_eq`. -/
theorem rawByteIsEscapedIntoObuf : Obligations.RawByteIsEscapedIntoObuf := by
  intro s i b hi
  rw [exec_of_rawByteOf hi, rawStep_eq]
  exact ⟨fun h => if_neg (Nat.not_lt.2 h), fun h => if_pos h⟩

/-- Settles O51: the six rows that have a status, each by its arm of `exec` and of `encode`; no status has the code 6
or 7. -/
theorem statusRowsReturnTheirStatus : Obligations.StatusRowsReturnTheirStatus := by
  refine ⟨fun s i st h => ?_, fun st => ?_, fun s x => rfl⟩
  · cases i with
    | stOk | stOverflow | stBadEscape | stBufferTooSmall | stTransportError | stCancelled =>
      cases h
      exact ⟨rfl, rfl⟩
    | _ => cases h
  · cases st <;> decide

end Sys2Proof.Machine
end

section
/-! A completed command gives exactly one response (R52, R93, R101): what completes each command, and what it shows. -/

namespace Sys2Proof.Machine

/-- The statuses of `DEC_BYTE` (R61). -/
theorem State.decodeByte_status (s : State) (b : Byte) :
    (s.decodeByte b).1 ∈ [Status.ok, .overflow, .badEscape] := by
  have e := s.decodeByte_effect b
  generalize s.decodeByte b = r at e
  cases e <;> simp

/-- The command `i` has completed in `t`: after `evs` one response is shown, its status is admitted, an error carries no
value, and only after `ENCODE` an attached sender has anything to send. -/
def Completed (i : Instr) (s t : State) (evs : List Event) (allowed : List Status) : Prop :=
  t.rx = none ∧
    ∃ r, t.resp = some r ∧ t.trace = s.trace ++ evs ++ [.response r] ∧ r.status ∈ allowed ∧
      (r.status ≠ .ok → r.value = .none) ∧ ((∀ p, i ≠ .encode p) → t.toSend = [])

section
variable {i : Instr} {s t : State} {evs : List Event} {allowed : List Status} {st : Status} {v : RespValue}

theorem Completed.of_resp (hrx : t.rx = none) (hr : t.resp = some { status := st, value := v })
    (ht : t.trace = s.trace ++ evs ++ [.response { status := st, value := v }]) (hst : st ∈ allowed)
    (hv : st ≠ .ok → v = .none) (hi : (∀ p, i ≠ .encode p) → ∀ n, v ≠ .frameLength n) :
    Completed i s t evs allowed :=
  ⟨hrx, _, hr, ht, hst, hv, fun he => State.toSend_eq_nil fun r n hn => by
    cases hr.symm.trans hn
    exact hi he n⟩

/-- A response given where nothing was shown before it. -/
theorem Completed.of_respond {u : State} (hu : u.trace = s.trace) (hst : st ∈ allowed) (hv : st ≠ .ok → v = .none)
    (hi : (∀ p, i ≠ .encode p) → ∀ n, v ≠ .frameLength n) : Completed i s (u.respond st v) [] allowed :=
  .of_resp (by simp) (by simp) (by simp [hu]) hst hv hi

end

theorem execEncode_completed {s t : State} {p : List Byte} (h : execEncode p s = .next t) :
    Completed (.encode p) s t [] [.ok, .overflow] := by
  rw [execEncode_eq] at h
  split at h <;> cases h
  · exact .of_respond (by simp) (by simp) (by simp) (by simp)
  · exact .of_respond rfl (by simp) (by simp) (by simp)

theorem feed_completed {s t : State} {b : Byte} (h : feed b s = .next t) :
    Completed (.decByte b) s t [] [.ok, .overflow, .badEscape] := by
  obtain ⟨-, rfl⟩ := feed_next h
  exact .of_respond (by simp) (s.decodeByte_status b) (by simp) (by simp)

/-- `RX_RECEIVE_FRAME` completes, or waits and has given no response (R92). -/
theorem runReceive_completed {c : Nat} {s t : State} (h : runReceive c { s with rx := some c } = .next t) :
    ∃ evs : List Event, (∀ r, Event.response r ∉ evs) ∧
      (Completed (.rxReceiveFrame c) s t evs [.ok, .bufferTooSmall, .transportError, .cancelled] ∨
        (t.rx = some c ∧ t.resp = s.resp ∧ t.trace = s.trace ++ evs)) := by
  obtain ⟨evs, hn, hw | ⟨st, v, hrx, hr, ht, hst, hv, hi⟩⟩ := runReceive_observes h
  · exact ⟨evs, hn, .inr hw⟩
  · exact ⟨evs, hn, .inl (.of_resp hrx hr ht hst hv fun _ => hi)⟩

/-- Settles O53: each command but `RX_RECEIVE_FRAME` completes and shows nothing before its response; that one by
`runReceive_completed`. -/
theorem commandsGiveOneResponse : Obligations.CommandsGiveOneResponse := by
  intro s t i allowed hi h
  suffices H : ((∀ c, i ≠ .rxReceiveFrame c) ∧ Completed i s t [] allowed) ∨
      ∃ c, i = .rxReceiveFrame c ∧ allowed = [.ok, .bufferTooSmall, .transportError, .cancelled] by
    rcases H with ⟨-, hrx, hc⟩ | ⟨c, rfl, rfl⟩
    · exact ⟨[], by simp, fun _ => ⟨rfl, hrx⟩, fun _ => hc, fun hne => absurd hrx hne⟩
    · obtain ⟨evs, hn, ⟨hrx, hc⟩ | ⟨hrx, hw⟩⟩ := runReceive_completed h
      · exact ⟨evs, hn, fun hne => absurd rfl (hne c), fun _ => hc, fun hne => absurd hrx hne⟩
      · exact ⟨evs, hn, fun hne => absurd rfl (hne c), fun hnone => by simp [hrx] at hnone, fun _ => hw⟩
  rcases hi with ⟨⟨p, rfl⟩, rfl⟩ | ⟨⟨b, rfl⟩, rfl⟩ | ⟨hread, rfl⟩ | ⟨⟨c, rfl⟩, rfl⟩
  · exact .inl ⟨by simp, execEncode_completed h⟩
  · exact .inl ⟨by simp, feed_completed h⟩
  · rcases hread with rfl | rfl | rfl <;> cases h <;>
      exact .inl ⟨by simp, .of_respond (by simp) (by simp) (by simp) (by simp)⟩
  · exact .inr ⟨c, rfl, rfl⟩

end Sys2Proof.Machine
end

section
/-! The Encoder (40_encoder.md): the length of a frame (R55), `ENCODE` by whether its frame fits (R54, R56, R59, R60),
and the incremental encoder, which is `ENCODE` (R57). -/

namespace Sys2Proof.Machine

open Sys2Proof.Claims

/-! A reserved byte takes one byte more on the wire than it has in the payload (R55). -/

theorem escapeAll_length_eq (v : Variant) (p : List Byte) : (escapeAll v p).length = p.length + reservedCount v p := by
  induction p with
  | nil => rfl
  | cons b p ih =>
    rw [reservedCount] at ih ⊢
    rw [escapeAll_cons, List.length_append, esc_length, ih, List.countP_cons, List.length_cons]
    split <;> omega

theorem frame_length_eq_escapeAll (v : Variant) (p : List Byte) :
    (frame v p).length = 1 + (escapeAll v p).length + 1 := by
  simp only [frame, List.length_append, List.length_singleton]

theorem frame_length_eq (v : Variant) (p : List Byte) : (frame v p).length = p.length + reservedCount v p + 2 := by
  rw [frame_length_eq_escapeAll, escapeAll_length_eq]
  omega

/-- Settles O13: by `frame_length_eq` the bounds are those of the count of reserved bytes, 0 and N. -/
theorem frameLengthLaw : Obligations.FrameLengthLaw := by
  intro v p
  have hlen := frame_length_eq v p
  have hle : reservedCount v p ≤ p.length := List.countP_le_length
  have hnone : reservedCount v p = 0 ↔ ∀ b ∈ p, reserved v b = false := by simp [reservedCount]
  have hall : reservedCount v p = p.length ↔ ∀ b ∈ p, reserved v b = true := List.countP_eq_length
  refine ⟨hlen, by omega, by omega, ?_, ?_⟩
  · rw [← hnone]
    omega
  · rw [← hall]
    omega

/-! `ENCODE` of a payload, by whether the frame fits. -/

/-- The state before the `Ok(L)` of an `ENCODE`: the frame in `OBUF[0 .. L)`, and `enc.widx = L` (R54). -/
def State.withFrame (s : State) (p : List Byte) : State :=
  { s with encWidx := (frame s.cfg.variant p).length
           obuf := Memory.writeSeq Memory.unspecified 0 (frame s.cfg.variant p) }

theorem exec_encode_of_fits {s : State} {p : List Byte} (h : (frame s.cfg.variant p).length ≤ s.cfg.encCap) :
    exec (.encode p) s = .next ((s.withFrame p).respond .ok (.frameLength (frame s.cfg.variant p).length)) := by
  rw [frame_length] at h
  rw [State.withFrame, frame_length]
  exact (execEncode_eq p s).trans (if_neg (Nat.not_lt.2 h))

theorem exec_encode_of_overflow {s : State} {p : List Byte} (h : s.cfg.encCap < (frame s.cfg.variant p).length) :
    exec (.encode p) s = .next (s.encoderStart.respond .overflow .none) := by
  rw [frame_length] at h
  exact (execEncode_eq p s).trans (if_pos h)

theorem State.read_withFrame (s : State) (p : List Byte) {i : Nat} (hi : i < (frame s.cfg.variant p).length) :
    Memory.read (s.withFrame p).obuf i = (frame s.cfg.variant p)[i]? := by
  simp [State.withFrame, Memory.read_writeSeq, hi]

theorem State.toSend_withFrame (s : State) (p : List Byte) :
    ((s.withFrame p).respond .ok (.frameLength (frame s.cfg.variant p).length)).toSend = frame s.cfg.variant p :=
  State.bytesBelow_of_writeSeq rfl

theorem State.toSend_respond_overflow (s : State) : (s.respond .overflow .none).toSend = [] := rfl

theorem escapeAll_eq_flatMap (v : Variant) (p : List Byte) : escapeAll v p = p.flatMap (esc v) := by
  induction p with
  | nil => rfl
  | cons b p ih => rw [escapeAll_cons, ih, List.flatMap_cons]

theorem frame_eq_flatMap (v : Variant) (p : List Byte) : frame v p = [0xC0#8] ++ p.flatMap (esc v) ++ [0xC0#8] := by
  rw [frame, escapeAll_eq_flatMap, bEnd]

/-- Settles O14: `exec_encode_of_fits`, with the frame of `State.read_withFrame` in `OBUF`. -/
theorem encodeWritesTheFrame : Obligations.EncodeWritesTheFrame := by
  intro s p h
  rw [← frame_length_eq] at h ⊢
  refine ⟨(s.withFrame p).obuf, exec_encode_of_fits h, fun i hi => ?_⟩
  rw [← frame_eq_flatMap, s.read_withFrame p hi]

/-- Settles O15: the two cases of `ENCODE` exclude each other, and differ in the status of the response. -/
theorem encodeOverflowsExactlyWhenTooLong : Obligations.EncodeOverflowsExactlyWhenTooLong := by
  intro s p
  rw [← frame_length_eq]
  by_cases h : s.cfg.encCap < (frame s.cfg.variant p).length
  · exact ⟨_, exec_encode_of_overflow h, ⟨fun _ => h, fun _ => rfl⟩, fun hle => absurd h (Nat.not_lt.2 hle),
      fun _ => ⟨rfl, rfl⟩⟩
  · refine ⟨_, exec_encode_of_fits (Nat.not_lt.1 h), ⟨fun hr => ?_, fun hlt => absurd hlt h⟩, fun _ => rfl,
      fun hlt => absurd hlt h⟩
    cases hr

/-- Settles O17: whether the frame fits, and the frame, are the same in two states of one instance. -/
theorem encodeDependsOnPayloadOnly : Obligations.EncodeDependsOnPayloadOnly := by
  intro s t p hc
  by_cases h : s.cfg.encCap < (frame s.cfg.variant p).length
  · exact ⟨_, _, exec_encode_of_overflow h, exec_encode_of_overflow (hc ▸ h), rfl, rfl,
      fun i hi => absurd hi (Nat.not_lt_zero i)⟩
  · have hfits := Nat.not_lt.1 h
    have hframe : frame t.cfg.variant p = frame s.cfg.variant p := by rw [hc]
    refine ⟨_, _, exec_encode_of_fits hfits, exec_encode_of_fits (hc ▸ hfits), ?_, ?_, fun i hi => ?_⟩
    · simp only [State.respond_fields, hframe]
    · simp only [State.respond_fields, State.withFrame, hframe]
    · replace hi : i < (frame s.cfg.variant p).length := hi
      have hs : Memory.read (s.withFrame p).obuf i = (frame s.cfg.variant p)[i]? := s.read_withFrame p hi
      have ht : Memory.read (t.withFrame p).obuf i = (frame s.cfg.variant p)[i]? :=
        hframe ▸ t.read_withFrame p (hframe ▸ hi)
      exact ⟨hs.trans ht.symm, by simp [hs, hi]⟩

/-- Settles O18: by whether the frame fits. -/
theorem senderSendsTheFrameOrNothing : Obligations.SenderSendsTheFrameOrNothing := by
  intro s t p ht
  split
  · rename_i h
    cases (exec_encode_of_overflow h).symm.trans ht
    exact s.encoderStart.toSend_respond_overflow
  · rename_i h
    cases (exec_encode_of_fits (Nat.not_lt.1 h)).symm.trans ht
    exact s.toSend_withFrame p

/-! The incremental encoder (R57). -/

@[simp] theorem State.emitSeq_cfg (s : State) (w : List Byte) : (s.emitSeq w).cfg = s.cfg := by
  rw [State.emitSeq_eq]

@[simp] theorem State.emitSeq_encWidx (s : State) (w : List Byte) : (s.emitSeq w).encWidx = s.encWidx + w.length := by
  rw [State.emitSeq_eq]

/-- The payload loop, whole: with room for the trailing `END` at its start it overflows exactly when the escaped payload
and that `END` do not fit, wherever in the payload that shows (R57). -/
theorem State.encodeBytes_eq {s : State} (p : List Byte) (hroom : s.encWidx + 1 ≤ s.cfg.encCap) :
    s.encodeBytes p =
      if s.cfg.encCap < s.encWidx + (escapeAll s.cfg.variant p).length + 1 then none
      else some (s.emitSeq (escapeAll s.cfg.variant p)) := by
  induction p generalizing s with
  | nil => exact (if_neg (Nat.not_lt.2 hroom)).symm
  | cons b p ih =>
    rw [State.encodeBytes, State.encodeByte_eq, escapeAll_cons, List.length_append, State.emitSeq_append]
    by_cases h : s.cfg.encCap < s.encWidx + (esc s.cfg.variant b).length + 1
    · rw [if_pos h, if_pos (by omega)]
    · rw [if_neg h]
      dsimp only
      rw [ih (by simp; omega), State.emitSeq_cfg, State.emitSeq_encWidx, Nat.add_assoc s.encWidx]

/-- The frame written one part after another is the frame written at once (R54, R57). -/
theorem State.emit_emitSeq_emit_eq_withFrame (s : State) (p : List Byte) :
    ((s.encoderStart.emit bEnd).emitSeq (escapeAll s.cfg.variant p)).emit bEnd = s.withFrame p := by
  calc
    _ = s.encoderStart.emitSeq (frame s.cfg.variant p) := by
      rw [frame, State.emitSeq_append, State.emitSeq_append]
      rfl
    _ = s.withFrame p := by simp [State.emitSeq_eq, State.withFrame, State.encoderStart]

/-- Settles O16: both overflow exactly when the frame does not fit, by `State.encodeBytes_eq`; when it fits, the bytes
written are those of the frame, by `State.emit_emitSeq_emit_eq_withFrame`. -/
theorem incrementalEncoderIsEncode : Obligations.IncrementalEncoderIsEncode := by
  intro s p
  have hlen := frame_length_eq_escapeAll s.cfg.variant p
  rw [encodeIncrementally]
  split <;> rename_i hends <;> rw [State.frameTooLong_iff] at hends
  · exact (exec_encode_of_overflow (by omega)).symm
  · rw [State.encodeBytes_eq p (show 1 + 1 ≤ s.cfg.encCap by omega)]
    simp only [State.emit_fields, State.encoderStart_fields, Nat.zero_add]
    by_cases h : s.cfg.encCap < (frame s.cfg.variant p).length
    · rw [if_pos (hlen ▸ h), exec_encode_of_overflow h]
      rfl
    · rw [if_neg (hlen ▸ h), exec_encode_of_fits (Nat.not_lt.1 h), hlen, ← State.emit_emitSeq_emit_eq_withFrame]
      simp

end Sys2Proof.Machine
end

section
/-! The invariant of a machine driven by its host (R38, R50, R74, R92): the two things a host can make the block do are a
command that runs to completion and the receive loop; what each of them keeps of the Decoder, of the wait and of the
port, and then the step. -/

namespace Sys2Proof.Machine

/-- A host's transaction decodes to a command or a wire symbol (R50). -/
theorem hostIssuable_encode_of_decode {c : Config} {x : Xact} {i : Instr} (hd : decode c x = .instr i)
    (hx : x.hostIssuable = true) : (encode i).hostIssuable = true := by
  cases x with
  | coded f code ops =>
    rw [(decode_coded_instr hd).2]
    cases f <;> exact hx
  | call op => cases hx

/-- What a host's command or wire symbol answers next with, all of it (R48, R50). -/
theorem exec_next_of_host {s t : State} {i : Instr} (hi : (encode i).hostIssuable = true) (h : exec i s = .next t) :
    (∃ b, feed b s = .next t) ∨ (∃ b c, feedPair b c s = .next t) ∨ (∃ p, execEncode p s = .next t) ∨
      (∃ v, t = s.respond .ok v) ∨ t = s.decoderReset.respond .ok .none ∨
      ∃ c, i = .rxReceiveFrame c ∧ runReceive c { s with rx := some c } = .next t := by
  cases i with
  | wireEnd | wireEsc | wireData _ | decByte _ => exact .inl ⟨_, h⟩
  | seqEscEnd | seqEscEsc | seqEsc11 | seqEsc13 | seqBad _ => exact .inr (.inl ⟨_, _, h⟩)
  | encode p => exact .inr (.inr (.inl ⟨p, h⟩))
  | decHasFrame | decTakeFrame => cases h; exact .inr (.inr (.inr (.inl ⟨_, rfl⟩)))
  | decReset => cases h; exact .inr (.inr (.inr (.inr (.inl rfl))))
  | rxReceiveFrame c => exact .inr (.inr (.inr (.inr (.inr ⟨c, rfl, h⟩))))
  | cmdReserved0 | cmdReserved7 | cmdReserved8F _ => cases h
  | _ => cases hi

/-! The Decoder's invariants (R74). -/

theorem feed_decoderInv {s t : State} {b : Byte} (hs : s.DecoderInv) (h : feed b s = .next t) : t.DecoderInv := by
  obtain ⟨hf, rfl⟩ := feed_next h
  exact (hs.decodeByte b hf).congr (by simp)

theorem feedPair_decoderInv {s t : State} {b c : Byte} (hs : s.DecoderInv) (h : feedPair b c s = .next t) :
    t.DecoderInv := by
  obtain ⟨u, hb, hc⟩ := feedPair_next h
  exact feed_decoderInv (feed_decoderInv hs hb) hc

theorem execEncode_decoderInv {s t : State} {p : List Byte} (hs : s.DecoderInv) (h : execEncode p s = .next t) :
    t.DecoderInv := by
  obtain ⟨⟨hidx, hframe, hstate, -⟩, -⟩ := execEncode_frame h
  exact hs.congr ⟨execEncode_cfg h, hidx, hframe, hstate⟩

/-- A turn resets the Decoder, gives it one byte, or leaves it (R86). -/
theorem turn_decoderInv {c : Nat} {s t : State} (hs : s.DecoderInv)
    (ht : turn c s = .returned t ∨ turn c s = .waits t ∨ turn c s = .again t) : t.DecoderInv := by
  have hq (r : List Byte) : (s.setQueue r).DecoderInv := hs.congr (by simp)
  have e := turn_effect c s
  rcases ht with ht | ht | ht <;> rw [ht] at e <;> cases e
  case tooSmall | delivers | overflows => exact (State.DecoderInv.of_decoderReset s).congr (by simp)
  case decodes hf b r _ hd =>
    have hb := (hq r).decodeByte b hf
    rwa [hd] at hb
  case swallows hf b r _ hd =>
    have hb := (hq r).decodeByte b hf
    rw [hd] at hb
    exact hb.congr (by simp)
  all_goals exact hs.congr (by simp)

theorem runReceive_decoderInv {c : Nat} {s t : State} (hs : s.DecoderInv) (h : runReceive c s = .next t) :
    t.DecoderInv :=
  runReceive_keeps (fun _ _ hs ht => turn_decoderInv hs (.inl ht))
    (fun _ _ hs ht => turn_decoderInv hs (.inr (.inl ht))) (fun _ _ hs ht => turn_decoderInv hs (.inr (.inr ht))) hs h

/-- Every command and every wire symbol keeps the Decoder's invariants (R74). -/
theorem exec_decoderInv_of_host {s t : State} {i : Instr} (hs : s.DecoderInv) (hi : (encode i).hostIssuable = true)
    (h : exec i s = .next t) : t.DecoderInv := by
  rcases exec_next_of_host hi h with ⟨b, hb⟩ | ⟨b, c, hb⟩ | ⟨p, hp⟩ | ⟨v, rfl⟩ | rfl | ⟨c, -, hc⟩
  · exact feed_decoderInv hs hb
  · exact feedPair_decoderInv hs hb
  · exact execEncode_decoderInv hs hp
  · exact hs.congr (by simp)
  · exact (State.DecoderInv.of_decoderReset s).congr (by simp)
  · exact runReceive_decoderInv (hs.congr (t := { s with rx := some c }) ⟨rfl, rfl, rfl, rfl⟩) hc

/-! The wait for the transport (R88, R92). -/

/-- No command runs and no request is outstanding: there is nothing to wait for. -/
theorem State.WaitInv.of_not_running {s : State} (hx : s.rx = none) (hp : s.recvPending = false) : s.WaitInv := by
  simp [State.WaitInv, hx, hp]

theorem State.WaitInv.recvPending_eq_false {s : State} (h : s.WaitInv) (hx : s.rx = none) : s.recvPending = false := by
  simpa [hx] using h.1

/-- How a turn ends for a Receiver whose outstanding request finds the queue empty and no frame pending: a response with
no request outstanding, the wait of R88, or another turn with no request outstanding. -/
theorem turn_wait {c : Nat} {s : State} (hs : s.recvPending = true → s.q = [] ∧ s.decHasFrame = false) :
    match turn c s with
    | .returned t => t.rx = none ∧ t.recvPending = false
    | .waits t    => t.rx = s.rx ∧ t.recvPending = true ∧ t.q = [] ∧ t.decHasFrame = false
    | .again t    => t.rx = s.rx ∧ t.recvPending = false
    | .refuses _  => True := by
  have hp (h : ¬(s.q = [] ∧ s.decHasFrame = false)) : s.recvPending = false := Bool.eq_false_iff.2 (mt hs h)
  have e := turn_effect c s
  generalize turn c s = x at e
  cases e with
  | tooSmall hf | delivers hf => simp [hp (by simp [hf])]
  | decodes hf b r hq t hd =>
    have hb := (s.setQueue r).decodeByte_fields b
    rw [hd] at hb
    obtain ⟨-, -, -, -, -, -, hbx, hbp, -⟩ := hb
    exact ⟨hbx, hbp.trans (hp (by simp [hq]))⟩
  | swallows hf b r hq | overflows hf b r hq => simp [hp (by simp [hq])]
  | _ => simp [*]

theorem runReceive_waitInv {c : Nat} {s t : State} (hx : s.rx.isSome = true)
    (hs : s.recvPending = true → s.q = [] ∧ s.decHasFrame = false) (h : runReceive c s = .next t) : t.WaitInv := by
  refine runReceive_induction (c := c) (P := fun s o => s.rx.isSome = true →
    (s.recvPending = true → s.q = [] ∧ s.decHasFrame = false) → ∀ t, o = .next t → t.WaitInv)
    ?_ ?_ ?_ ?_ s hx hs t h
  · rintro a b ht - hs _ ⟨⟩
    have hb := turn_wait (c := c) hs
    rw [ht] at hb
    exact .of_not_running hb.1 hb.2
  · rintro a b ht hx hs _ ⟨⟩
    have hb := turn_wait (c := c) hs
    rw [ht] at hb
    obtain ⟨hbx, hbp, hbq⟩ := hb
    exact ⟨by simp [hbx, hx, hbp], fun _ => hbq⟩
  · rintro a r - - - _ ⟨⟩
  · intro a b o ht ih hx hs
    have hb := turn_wait (c := c) hs
    rw [ht] at hb
    obtain ⟨hbx, hbp⟩ := hb
    exact ih (hbx ▸ hx) (by simp [hbp])

/-! A command that runs to completion: no command runs after it, and the two ports are as before. -/

theorem feed_ports {s t : State} {b : Byte} (h : feed b s = .next t) :
    t.rx = none ∧ t.recvPending = s.recvPending ∧ t.hostIn = s.hostIn := by
  obtain ⟨-, rfl⟩ := feed_next h
  simp

theorem feedPair_ports {s t : State} {b c : Byte} (h : feedPair b c s = .next t) :
    t.rx = none ∧ t.recvPending = s.recvPending ∧ t.hostIn = s.hostIn := by
  obtain ⟨u, hb, hc⟩ := feedPair_next h
  simp [feed_ports hb, feed_ports hc]

theorem execEncode_ports {s t : State} {p : List Byte} (h : execEncode p s = .next t) :
    t.rx = none ∧ t.recvPending = s.recvPending ∧ t.hostIn = s.hostIn := by
  rw [execEncode_eq] at h
  split at h <;> cases h <;> simp

/-- What a host's instruction leaves of the wait and of the port, the receive loop included (R92). -/
theorem exec_waitInv_of_host {s t : State} {i : Instr} (hp : s.recvPending = false)
    (hi : (encode i).hostIssuable = true) (h : exec i s = .next t) : t.WaitInv ∧ t.hostIn = s.hostIn := by
  have completed (ht : t.rx = none ∧ t.recvPending = s.recvPending ∧ t.hostIn = s.hostIn) :
      t.WaitInv ∧ t.hostIn = s.hostIn :=
    ⟨.of_not_running ht.1 (ht.2.1.trans hp), ht.2.2⟩
  rcases exec_next_of_host hi h with ⟨b, hb⟩ | ⟨b, c, hb⟩ | ⟨p, he⟩ | ⟨v, rfl⟩ | rfl | ⟨c, -, hc⟩
  · exact completed (feed_ports hb)
  · exact completed (feedPair_ports hb)
  · exact completed (execEncode_ports he)
  · exact completed (by simp)
  · exact completed (by simp)
  · obtain ⟨-, -, -, hin, -⟩ := runReceive_frame hc
    exact ⟨runReceive_waitInv rfl (by simp [hp]) hc, hin⟩

/-! The step. -/

/-- What a step that answers next is: block reset, the running command, nothing, or the next instruction (R9, R92,
R109). -/
theorem step_next {s t : State} (h : step s = .next t) :
    t = s.blockReset ∨ (∃ c, s.rx = some c ∧ runReceive c s = .next t) ∨ t = s ∨
      ∃ x r i, s.rx = none ∧ s.hostIn = x :: r ∧ decode s.cfg x = .instr i ∧
        exec i { s with hostIn := r } = .next t := by
  rcases Bool.eq_false_or_eq_true s.rst with hr | hr
  · exact .inl (Host.Outcome.next.inj (step_of_rst hr ▸ h)).symm
  rcases Option.eq_none_or_eq_some s.rx with hx | ⟨c, hx⟩
  · cases hin : s.hostIn with
    | nil => exact .inr (.inr (.inl (Host.Outcome.next.inj (step_of_hostIn_nil hr hx hin ▸ h)).symm))
    | cons x r =>
      cases hd : decode s.cfg x with
      | instr i => exact .inr (.inr (.inr ⟨x, r, i, hx, rfl, hd, step_of_decode_instr hr hx hin hd ▸ h⟩))
      | reject why => rw [step_of_decode_reject hr hx hin hd] at h; cases h
  · exact .inr (.inl ⟨c, hx, step_of_rx hr hx ▸ h⟩)

/-- Block reset leaves no live byte, an empty queue and no running command, and the port as it is (R109). -/
theorem State.Inv.blockReset {s : State} (h : s.Inv) : s.blockReset.Inv where
  sound := by
    obtain ⟨hv, -, ⟨-, -, -, wo, -⟩, -⟩ := h.sound
    exact ⟨hv, ⟨Nat.zero_le _, Nat.zero_le _, Nat.zero_le _⟩,
      ⟨Memory.wf_unspecified, Memory.wf_unspecified, Memory.wf_unspecified, wo, Memory.within_unspecified _,
        Memory.within_unspecified _, Memory.within_unspecified _⟩, Memory.filled_zero _, Memory.filled_zero _⟩
  decoder := (State.DecoderInv.of_decoderReset s).congr (by simp)
  waits := .of_not_running (by simp) (by simp)
  hostOnly := h.hostOnly

/-- Settles O58: each branch of `step_next` keeps each of the four parts, by the lemma about that part. -/
theorem everyStepKeepsTheInvariant : Obligations.EveryStepKeepsTheInvariant := by
  intro s t hs h
  rcases step_next h with rfl | ⟨c, hx, hc⟩ | rfl | ⟨x, r, i, hx, hin, hd, he⟩
  · exact hs.blockReset
  · obtain ⟨-, -, -, hport, -⟩ := runReceive_frame hc
    exact ⟨runReceive_sound hs.sound hc, runReceive_decoderInv hs.decoder hc,
      runReceive_waitInv (by simp [hx]) hs.waits.2 hc, fun y hy => hs.hostOnly y (hport ▸ hy)⟩
  · exact hs
  · have hhost : ∀ y ∈ x :: r, y.hostIssuable = true := hin ▸ hs.hostOnly
    have hi := hostIssuable_encode_of_decode hd (hhost x List.mem_cons_self)
    obtain ⟨hwait, hport⟩ : t.WaitInv ∧ t.hostIn = r :=
      exec_waitInv_of_host (s := { s with hostIn := r }) (hs.waits.recvPending_eq_false hx) hi he
    exact ⟨exec_sound (s := { s with hostIn := r }) hs.sound he,
      exec_decoderInv_of_host (s := { s with hostIn := r }) (hs.decoder.congr ⟨rfl, rfl, rfl, rfl⟩) hi he, hwait,
      fun y hy => hhost y (List.mem_cons_of_mem x (hport ▸ hy))⟩

/-! What the Receiver delivers (R74, R87). -/

/-- A response with a payload's length is given by delivery alone, and that length is `dec.idx` (R87). -/
theorem turn_payloadLength {c l : Nat} {s t : State} (ht : turn c s = .returned t)
    (hr : t.resp = some { status := .ok, value := .payloadLength l }) : s.decHasFrame = true ∧ s.decIdx = l := by
  have e := turn_effect c s
  rw [ht] at e
  cases e with
  | delivers hf => simpa [hf] using hr
  | _ => simp at hr

/-- A receive that completes with a payload's length delivers at least one byte (R74 (b), R87). -/
theorem runReceive_payload_nonempty {c l : Nat} {s t : State} (hs : s.DecoderInv) (hx : s.rx.isSome = true)
    (h : runReceive c s = .next t) (htx : t.rx = none)
    (hr : t.resp = some { status := .ok, value := .payloadLength l }) : 1 ≤ l := by
  refine runReceive_induction (c := c) (P := fun s o => s.DecoderInv → s.rx.isSome = true → ∀ t, o = .next t →
    t.rx = none → t.resp = some { status := .ok, value := .payloadLength l } → 1 ≤ l) ?_ ?_ ?_ ?_ s hs hx t h htx hr
  · rintro a b ht hs - _ ⟨⟩ - hr
    obtain ⟨hf, rfl⟩ := turn_payloadLength ht hr
    exact (hs.frameReady hf).2
  · rintro a b ht - hx _ ⟨⟩ hbx
    obtain ⟨_, -, hb⟩ := turn_observes c a
    rw [ht] at hb
    simp [← hb.1, hbx] at hx
  · rintro a r - - - _ ⟨⟩
  · intro a b o ht ih hs hx
    obtain ⟨_, -, hb⟩ := turn_observes c a
    rw [ht] at hb
    exact ih (turn_decoderInv hs (.inr (.inr ht))) (hb.1 ▸ hx)

/-- Settles O30: reset, `exec_decoderInv_of_host`, and `runReceive_payload_nonempty`. -/
theorem decoderInvariantIsKept : Obligations.DecoderInvariantIsKept :=
  ⟨fun c => State.DecoderInv.of_decoderReset (State.resetOf c), fun _ _ _ hs hi h => exec_decoderInv_of_host hs hi h,
    fun s _ c _ hs h =>
      runReceive_payload_nonempty (hs.congr (t := { s with rx := some c }) ⟨rfl, rfl, rfl, rfl⟩) rfl h⟩

end Sys2Proof.Machine
end

section
/-! `DEC_BYTE` state by state (R64 to R69), the wire symbols that are `DEC_BYTE` and the hold (R62, R63), and the three
other Decoder commands (R71 to R73). -/

namespace Sys2Proof.Machine

open Sys2Proof.Claims

/-- `DEC_BYTE` where it is accepted, by what the byte does to the Decoder (R61). -/
theorem exec_decByte {s : State} {b : Byte} {r : Status × State} (hf : s.decHasFrame = false)
    (hd : s.decodeByte b = r) : exec (.decByte b) s = .next (r.2.respond r.1 .none) :=
  hd ▸ feed_eq b hf

/-! The cells of the state table for `END`, and for a byte that is neither marker. -/

theorem State.decodeByte_end_of_idle {s : State} (hs : s.decState = .idle) :
    s.decodeByte 0xC0#8 = (.ok, s.goto .frameOpen) := by
  simp [State.decodeByte, hs, cls]

theorem State.decodeByte_noise {s : State} {b : Byte} (hs : s.decState = .idle) (hb : b ≠ 0xC0#8) :
    s.decodeByte b = (.ok, s) := by
  cases hc : cls b with
  | endMark => exact absurd (cls_eq_endMark.1 hc) hb
  | escMark | other => simp [State.decodeByte, hs, hc]

theorem State.decodeByte_end_of_frameOpen {s : State} (hs : s.decState = .frameOpen) :
    s.decodeByte 0xC0#8 = (.ok, s) := by
  simp [State.decodeByte, hs, cls]

theorem State.decodeByte_end_of_decoding {s : State} (hs : s.decState = .decoding) :
    s.decodeByte 0xC0#8 = (.ok, s.setHasFrame.goto .idle) := by
  simp [State.decodeByte, hs, cls]

theorem State.decodeByte_other_full {s : State} {b : Byte} (hs : s.decState = .frameOpen ∨ s.decState = .decoding)
    (hb : cls b = .other) (hcap : s.decIdx = s.cfg.decCap) : s.decodeByte b = (.overflow, s) := by
  rcases hs with hs | hs <;> simp [State.decodeByte, hs, hb, State.appendThen_eq, hcap]

theorem State.decodeByte_other_fits {s : State} {b : Byte} (hs : s.decState = .frameOpen ∨ s.decState = .decoding)
    (hb : cls b = .other) (hcap : s.decIdx ≠ s.cfg.decCap) :
    s.decodeByte b =
      (.ok, { s with dbuf := Memory.write s.dbuf s.decIdx b, decIdx := s.decIdx + 1, decState := .decoding }) := by
  rcases hs with hs | hs <;> simp [State.decodeByte, hs, hb, State.appendThen_eq, hcap]

/-- Settles O20: `END`, or noise. -/
theorem decByteInIdle : Obligations.DecByteInIdle := by
  intro s b hf hs
  by_cases hb : b = 0xC0#8
  · subst hb
    exact exec_decByte hf (State.decodeByte_end_of_idle hs)
  · rw [if_neg hb, ← hs]
    exact exec_decByte hf (State.decodeByte_noise hs hb)

/-- Settles O21: `END`, `ESC`, and another byte by whether it fits. -/
theorem decByteInFrameOpen : Obligations.DecByteInFrameOpen := by
  intro s b hf hs
  split_ifs with hend hesc hcap
  · subst hend
    exact exec_decByte hf (State.decodeByte_end_of_frameOpen hs)
  · subst hesc
    exact exec_decByte hf (State.decodeByte_bEsc_of_open (.inl hs))
  · exact exec_decByte hf (State.decodeByte_other_full (.inl hs) (cls_eq_other.2 ⟨hend, hesc⟩) hcap)
  · exact exec_decByte hf (State.decodeByte_other_fits (.inl hs) (cls_eq_other.2 ⟨hend, hesc⟩) hcap)

/-- Settles O22: as in `FrameOpen`, but that `END` completes the frame. -/
theorem decByteInDecoding : Obligations.DecByteInDecoding := by
  intro s b hf hs
  split_ifs with hend hesc hcap
  · subst hend
    exact exec_decByte hf (State.decodeByte_end_of_decoding hs)
  · subst hesc
    exact exec_decByte hf (State.decodeByte_bEsc_of_open (.inr hs))
  · exact exec_decByte hf (State.decodeByte_other_full (.inr hs) (cls_eq_other.2 ⟨hend, hesc⟩) hcap)
  · rw [exec_decByte hf (State.decodeByte_other_fits (.inr hs) (cls_eq_other.2 ⟨hend, hesc⟩) hcap), ← hs]

/-- Settles O23: the three cases of a second byte. -/
theorem decByteInEscaping : Obligations.DecByteInEscaping := by
  intro s b hf hs
  cases hb : unesc s.cfg.variant b with
  | none => exact exec_decByte hf (State.decodeByte_undesignated hs hb)
  | some v =>
    dsimp only
    split_ifs with hcap
    · exact exec_decByte hf (State.decodeByte_designated_full hs hb hcap)
    · exact exec_decByte hf (State.decodeByte_designated_fits hs hb hcap)

/-! The wire symbols (R46, R62) and the hold (R63). -/

/-- Each wire-byte row is the transaction of its byte (R62). -/
theorem exec_of_wireByteOf {i : Instr} {b : Byte} (h : wireByteOf i = some b) (s : State) : exec i s = feed b s := by
  cases i with
  | wireEnd | wireEsc | wireData _ => cases h; rfl
  | _ => cases h

/-- Settles O25: the row and the command are one transaction, which is accepted. -/
theorem wireByteIsDecByte : Obligations.WireByteIsDecByte := by
  intro s i b hi hf
  exact ⟨_, (exec_of_wireByteOf hi s).trans (feed_eq b hf), exec_decByte hf rfl⟩

/-- What gives the Decoder bytes is one transaction of a byte, or the pair of `ESC` and a byte (R46, R62). -/
theorem exec_of_decoder_input {i : Instr} {b : Byte}
    (hi : i = .decByte b ∨ (wireByteOf i).isSome = true ∨ (secondByteOf i).isSome = true) :
    ∃ c, (∀ s, exec i s = feed c s) ∨ ∀ s, exec i s = feedPair bEsc c s := by
  rcases hi with rfl | hi | hi
  · exact ⟨b, .inl fun _ => rfl⟩
  · obtain ⟨c, hc⟩ := Option.isSome_iff_exists.1 hi
    exact ⟨c, .inl (exec_of_wireByteOf hc)⟩
  · obtain ⟨c, hc⟩ := Option.isSome_iff_exists.1 hi
    exact ⟨c, .inr (exec_of_secondByteOf hc)⟩

/-- A pair is held at its first byte (R63). -/
theorem feedPair_held {s : State} (b c : Byte) (h : s.decHasFrame = true) :
    feedPair b c s = .refused .heldWhileFramePending := by
  rw [feedPair, feed_held b h]

theorem feedPair_accepted {s : State} (c : Byte) (h : s.decHasFrame = false) : ∃ t, feedPair bEsc c s = .next t := by
  obtain ⟨hpair, hf⟩ := feedPair_eq c h
  exact ⟨_, hpair.trans (feed_eq c hf)⟩

/-- Settles O24: held with the flag set; accepted with it clear, which it is after `DEC_RESET` and after block reset. -/
theorem decByteIsHeldWhileFramePending : Obligations.DecByteIsHeldWhileFramePending := by
  intro s i b hi
  obtain ⟨c, hc⟩ := exec_of_decoder_input hi
  have accepted {t : State} (ht : t.decHasFrame = false) : ∃ u, exec i t = .next u := by
    rcases hc with hc | hc <;> rw [hc]
    · exact ⟨_, feed_eq c ht⟩
    · exact feedPair_accepted c ht
  refine ⟨fun hf => ?_, ?_, fun hr => ?_⟩
  · rcases hc with hc | hc <;> rw [hc]
    · exact feed_held c hf
    · exact feedPair_held bEsc c hf
  · obtain ⟨u, hu⟩ := accepted (t := s.decoderReset.respond .ok .none) rfl
    exact ⟨_, u, rfl, hu⟩
  · obtain ⟨u, hu⟩ := accepted (t := s.blockReset) rfl
    exact ⟨_, u, step_of_rst hr, hu⟩

/-- A live byte of `DBUF` that has been written is what `DEC_TAKE_FRAME` shows of it (R72). -/
theorem State.getElem?_dbufLive {s : State} {i : Nat} {v : Byte} (hi : i < s.decIdx)
    (hv : Memory.read s.dbuf i = some v) : s.dbufLive[i]? = some v := by
  have hb : s.byteAt .dbuf i = v := State.byteAt_of_read hv
  simp [State.dbufLive, State.bytesBelow, hi, hb]

/-- Settles O28: a read answers with what it reads, and a response is none of what it reads. -/
theorem decoderReadsAreIdempotent : Obligations.DecoderReadsAreIdempotent := by
  refine fun s => ⟨rfl, s.dbufLive, State.bytesBelow_length s _ _, fun i v => State.getElem?_dbufLive, rfl, ?_⟩
  rintro _ ⟨⟩
  exact ⟨rfl, rfl⟩

/-- Settles O29: the registers that `DEC_RESET` clears are clear after it. -/
theorem decResetIsIdempotent : Obligations.DecResetIsIdempotent := by
  refine fun s => ⟨rfl, ?_⟩
  rintro _ ⟨⟩
  rfl

end Sys2Proof.Machine
end

section
/-! Runs of bytes (R70, R75 to R77): a run of bytes that are all answered `Ok` (`Feeds`) as a sequence of `DEC_BYTE`
commands and as `decode_all`, and the runs the statements speak of. -/

namespace Sys2Proof.Machine

open Sys2Proof.Claims

/-- The state with `n` responses `Ok` more: beside the Decoder, a run of `n` bytes leaves its responses. -/
def State.answeredOk (s : State) : Nat → State
  | 0     => s
  | n + 1 => (s.respond .ok .none).answeredOk n

@[simp] theorem State.answeredOk_fields (s : State) (n : Nat) :
    (s.answeredOk n).decHasFrame = s.decHasFrame ∧ (s.answeredOk n).decIdx = s.decIdx ∧
      (s.answeredOk n).decState = s.decState ∧ (s.answeredOk n).dbuf = s.dbuf := by
  induction n generalizing s with
  | zero => exact ⟨rfl, rfl, rfl, rfl⟩
  | succ n ih => exact ih (s.respond .ok .none)

/-- Decoding goes past the responses given before. -/
theorem State.decodeByte_answeredOk (s : State) (n : Nat) (b : Byte) :
    (s.answeredOk n).decodeByte b = ((s.decodeByte b).1, (s.decodeByte b).2.answeredOk n) := by
  induction n generalizing s with
  | zero => rfl
  | succ n ih => rw [State.answeredOk, ih, State.decodeByte_respond]; rfl

theorem Feeds.respond {s t : State} {w : List Byte} (h : Feeds s w t) (st : Status) (v : RespValue) :
    Feeds (s.respond st v) w (t.respond st v) := by
  induction h with
  | nil => exact .nil _
  | cons hf hd _ ih => exact .cons hf (by rw [State.decodeByte_respond, hd]) ih

/-- The bytes of a run as commands, whatever is fed after them: each is answered `Ok` (R61). -/
theorem Feeds.decBytes_append {s t : State} {w : List Byte} (h : Feeds s w t) (x : List Byte) :
    decBytes (w ++ x) s =
      (decBytes x (t.answeredOk w.length)).map fun r => (List.replicate w.length .ok ++ r.1, r.2) := by
  induction w generalizing s t with
  | nil =>
    cases h
    simp [State.answeredOk]
  | cons b w ih =>
    cases h with
    | cons hf hd h =>
      simp only [List.cons_append, decBytes, exec_decByte hf hd, State.respond_fields, ih (h.respond .ok .none)]
      rw [List.length_cons, State.answeredOk]
      cases decBytes x _ <;> rfl

/-- The whole run as commands. -/
theorem Feeds.decBytes_ok {s t : State} {w : List Byte} (h : Feeds s w t) :
    ∃ sts u, decBytes w s = some (sts, u) ∧ (∀ st ∈ sts, st = .ok) ∧ u.decHasFrame = t.decHasFrame ∧
      u.decIdx = t.decIdx ∧ u.decState = t.decState ∧ u.dbuf = t.dbuf := by
  have hw : decBytes w s = some (List.replicate w.length .ok, t.answeredOk w.length) := by
    simpa [decBytes] using h.decBytes_append []
  exact ⟨_, _, hw, fun _ => List.eq_of_mem_replicate, t.answeredOk_fields w.length⟩

/-- A run, and then a byte that does not fit. -/
theorem Feeds.decBytes_overflow {s t : State} {w : List Byte} {b : Byte} (h : Feeds s w t)
    (hf : t.decHasFrame = false) (hb : t.decodeByte b = (.overflow, t)) :
    ∃ sts u, decBytes (w ++ [b]) s = some (sts ++ [.overflow], u) ∧ (∀ st ∈ sts, st = .ok) ∧
      u.decIdx = t.decIdx ∧ u.decHasFrame = false := by
  have hd : (t.answeredOk w.length).decodeByte b = (.overflow, t.answeredOk w.length) := by
    rw [State.decodeByte_answeredOk, hb]
  have hlast : decBytes [b] (t.answeredOk w.length) =
      some ([.overflow], (t.answeredOk w.length).respond .overflow .none) := by
    simp [decBytes, exec_decByte (by simp [hf]) hd]
  refine ⟨_, _, by rw [h.decBytes_append, hlast]; rfl, fun _ => List.eq_of_mem_replicate, ?_⟩
  simp [hf]

/-! The runs. -/

/-- Bytes that the Decoder ignores: noise in `Idle`, repeated delimiters in `FrameOpen`. -/
theorem Feeds.of_ignored {s : State} {w : List Byte} (hf : s.decHasFrame = false)
    (h : ∀ b ∈ w, s.decodeByte b = (.ok, s)) : Feeds s w s := by
  induction w with
  | nil => exact .nil s
  | cons b w ih => exact .cons hf (h b List.mem_cons_self) (ih fun c hc => h c (List.mem_cons_of_mem b hc))

/-- Bytes without `END` in `Idle` (R64, R76). -/
theorem Feeds.noise {s : State} {n : List Byte} (hf : s.decHasFrame = false) (hs : s.decState = .idle)
    (hn : 0xC0#8 ∉ n) : Feeds s n s :=
  .of_ignored hf fun _ hb => State.decodeByte_noise hs (ne_of_mem_of_not_mem hb hn)

/-- The delimiter before a payload, from a Decoder that waits for one (R64, R65). -/
theorem Feeds.opening {s : State} (hf : s.decHasFrame = false) (hs : s.decState = .idle ∨ s.decState = .frameOpen) :
    Feeds s [0xC0#8] (s.goto .frameOpen) := by
  refine .cons hf ?_ (.nil _)
  rcases hs with hs | hs
  · exact State.decodeByte_end_of_idle hs
  · rw [State.decodeByte_end_of_frameOpen hs, State.goto, ← hs]

/-- The delimiter and a payload that fits: the frame is open and holds the payload (R65 to R67). -/
theorem Feeds.opening_payload {s : State} {p : List Byte} (hf : s.decHasFrame = false)
    (hs : s.decState = .idle ∨ s.decState = .frameOpen) (hi : s.decIdx = 0) (hp : 1 ≤ p.length)
    (hcap : p.length ≤ s.cfg.decCap) :
    ∃ t, Feeds s ([0xC0#8] ++ Machine.escapeAll s.cfg.variant p) t ∧ t.cfg = s.cfg ∧ t.decHasFrame = false ∧
      t.decState = .decoding ∧ t.decIdx = p.length := by
  have hpayload := Feeds.escapeAll hp (s := s.goto .frameOpen) hf (.inl rfl) (by simpa [hi] using hcap)
  exact ⟨_, (Feeds.opening hf hs).append hpayload, rfl, hf, rfl, by simp [hi]⟩

/-- The escape sequence of a payload byte that finds `DBUF` full: its last byte is the one that overflows (R68). -/
theorem Feeds.esc_full {s : State} (b : Byte) (hf : s.decHasFrame = false)
    (hs : s.decState = .frameOpen ∨ s.decState = .decoding) (hcap : s.decIdx = s.cfg.decCap) :
    ∃ w x t, Machine.esc s.cfg.variant b = w ++ [x] ∧ Feeds s w t ∧ t.decHasFrame = false ∧ t.decIdx = s.decIdx ∧
      t.decodeByte x = (.overflow, t) := by
  cases hb : escSecond s.cfg.variant b with
  | none =>
    exact ⟨[], b, s, esc_of_none hb, .nil s, hf, rfl, State.decodeByte_other_full hs (cls_of_escSecond_none hb) hcap⟩
  | some x =>
    exact ⟨[bEsc], x, s.goto .escaping, esc_of_some hb, .cons hf (State.decodeByte_bEsc_of_open hs) (.nil _), hf, rfl,
      State.decodeByte_designated_full rfl (unesc_of_escSecond hb) hcap⟩

/-- A Decoder that waits for a frame has accumulated nothing (R74 (c), (d)). -/
theorem State.DecoderInv.decIdx_eq_zero {s : State} (hi : s.DecoderInv) (hf : s.decHasFrame = false)
    (hs : s.decState = .idle ∨ s.decState = .frameOpen) : s.decIdx = 0 :=
  hs.elim (fun h => hi.idleEmpty h hf) hi.openEmpty

/-- A payload written at the start of `DBUF` is read back. -/
theorem Memory.read_writeSeq_zero (m : Memory) {p : List Byte} {i : Nat} (hi : i < p.length) :
    Memory.read (Memory.writeSeq m 0 p) i = p[i]? := by
  simp [Memory.read_writeSeq, hi]

/-- Settles O31: `Feeds.frame`, from `dec.idx = 0`. -/
theorem roundTripThroughTheDecoder : Obligations.RoundTripThroughTheDecoder := by
  intro s p hi hf hs hp hcap
  obtain ⟨sts, u, hu, hok, hframe, hidx, hstate, hbuf⟩ :=
    (Feeds.frame hp hf hs (hi.decIdx_eq_zero hf hs) hcap).decBytes_ok
  exact ⟨sts, u, hu, hok, hframe, hidx, hstate, fun i hip => hbuf ▸ Memory.read_writeSeq_zero s.dbuf hip⟩

/-- Settles O32: `END` and the payload's first bytes fill `DBUF`; then `Feeds.esc_full`. -/
theorem oversizedPayloadOverflowsTheDecoder : Obligations.OversizedPayloadOverflowsTheDecoder := by
  intro s p q b hi hf hs hlen hp
  obtain ⟨t, ht, htc, htf, hts, hti⟩ := Feeds.opening_payload hf hs (hi.decIdx_eq_zero hf hs) hp hlen.le
  obtain ⟨w, x, u, hesc, hw, huf, hui, hover⟩ := Feeds.esc_full b htf (.inr hts) (by rw [hti, hlen, htc])
  obtain ⟨sts, r, hr, hok, hri, hrf⟩ := (ht.append hw).decBytes_overflow huf hover
  rw [List.append_assoc, ← hesc, htc] at hr
  exact ⟨sts, r, hr, hok, by rw [hri, hui, hti, hlen], hrf, by simp [frame_eq_flatMap, escapeAll_eq_flatMap]⟩

/-- Settles O34: noise leaves the Decoder as it is, so the frame after it finds the reset state. -/
theorem noiseBeforeTheFrameIsDiscarded : Obligations.NoiseBeforeTheFrameIsDiscarded := by
  intro s n p hs hf hidx hn hp hcap
  have hnoise : Feeds s n s := .noise hf hs hn
  obtain ⟨sts, t, ht, hok, htf, hti, hts, htb⟩ := hnoise.decBytes_ok
  obtain ⟨sts', u, hu, hok', huf, hui, -, hub⟩ :=
    (hnoise.append (Feeds.frame hp hf (.inl hs) hidx hcap)).decBytes_ok
  exact ⟨⟨sts, t, ht, hok, hts.trans hs, htf.trans hf, hti.trans hidx, htb⟩, sts', u, hu, hok', huf, hui,
    fun i hi => hub ▸ Memory.read_writeSeq_zero s.dbuf hi⟩

/-- Settles O36: the first `END` opens a frame, and the others are ignored. -/
theorem emptyFrameReportsNothing : Obligations.EmptyFrameReportsNothing := by
  intro s n hs hf hidx
  have hrest : Feeds (s.goto .frameOpen) (List.replicate n 0xC0#8) (s.goto .frameOpen) :=
    .of_ignored hf fun b hb => List.eq_of_mem_replicate hb ▸ State.decodeByte_end_of_frameOpen rfl
  obtain ⟨sts, t, ht, hok, htf, hti, hts, -⟩ := ((Feeds.opening hf (.inl hs)).append hrest).decBytes_ok
  exact ⟨sts, t, ht, hok, hts, htf.trans hf, hti.trans hidx⟩

/-! `decode_all` (R53). -/

/-- A run that completes no frame records nothing. -/
theorem Feeds.feedAll_append {s t : State} {w : List Byte} (h : Feeds s w t) (ht : t.decHasFrame = false)
    (x : List Byte) : feedAll s (w ++ x) = feedAll t x := by
  induction h with
  | nil => rfl
  | @cons s t u b w hf hd h ih =>
    have htf : t.decHasFrame = false := by
      cases h with
      | nil => exact ht
      | cons htf => exact htf
    simp only [List.cons_append, feedAll, hd, htf, Bool.false_eq_true, if_false]
    exact ih ht

/-- A run that ends with a frame ready records its payload and resets the Decoder. -/
theorem Feeds.feedAll_append_ready {s t : State} {w : List Byte} (h : Feeds s w t) (hs : s.decHasFrame = false)
    (ht : t.decHasFrame = true) (x : List Byte) :
    feedAll s (w ++ x) = (t.dbufLive :: (feedAll t.decoderReset x).1, (feedAll t.decoderReset x).2) := by
  induction h with
  | nil => simp [hs] at ht
  | cons hf hd h ih =>
    cases h with
    | nil => simp only [List.cons_append, List.nil_append, feedAll, hd, ht, if_true]
    | cons htf =>
      simp only [List.cons_append, feedAll, hd, htf, Bool.false_eq_true, if_false]
      exact ih htf ht

/-- A frame, whatever follows it: its payload is recorded, and what follows finds the Decoder reset (R53, R75). -/
theorem feedAll_frame {s : State} {p : List Byte} (hf : s.decHasFrame = false) (hs : s.decState = .idle)
    (hi : s.decIdx = 0) (hp : 1 ≤ p.length) (hcap : p.length ≤ s.cfg.decCap) (x : List Byte) :
    ∃ t : State, t.cfg = s.cfg ∧ feedAll s (frame s.cfg.variant p ++ x) =
      (p :: (feedAll t.decoderReset x).1, (feedAll t.decoderReset x).2) := by
  obtain ⟨t, ht, htc, htf, htp⟩ :
      ∃ t, Feeds s (frame s.cfg.variant p) t ∧ t.cfg = s.cfg ∧ t.decHasFrame = true ∧ t.dbufLive = p :=
    ⟨_, .frame hp hf (.inl hs) hi hcap, rfl, rfl, State.bytesBelow_of_writeSeq rfl⟩
  exact ⟨t, htc, by rw [ht.feedAll_append_ready hf htf, htp]⟩

/-- Settles O35: after the first frame the Decoder is reset; `w` is then noise, or the payload of a second frame. -/
theorem framesMustNotShareADelimiter : Obligations.FramesMustNotShareADelimiter := by
  intro s p w hp hcap
  have hfirst := feedAll_frame (s := s.decoderReset) rfl rfl rfl hp hcap
  refine ⟨fun hw => ?_, fun hw hwcap => ?_⟩
  · obtain ⟨t, -, ht⟩ := hfirst (w ++ [0xC0#8])
    have hlast : feedAll t.decoderReset (w ++ [0xC0#8]) = ([], t.decoderReset.goto .frameOpen) := by
      rw [(Feeds.noise (s := t.decoderReset) rfl rfl hw).feedAll_append rfl]
      rfl
    rw [hlast, ← List.append_assoc] at ht
    exact ⟨congrArg Prod.fst ht, congrArg (fun r => r.2.decState) ht⟩
  · obtain ⟨t, htc, ht⟩ := hfirst (frame s.cfg.variant w)
    obtain ⟨u, -, hu⟩ := feedAll_frame (s := t.decoderReset) rfl rfl rfl hw (by simpa [htc] using hwcap) []
    have hv : t.decoderReset.cfg.variant = s.cfg.variant := by simp [htc]
    rw [hv, List.append_nil] at hu
    rw [hu] at ht
    exact congrArg Prod.fst ht

end Sys2Proof.Machine
end

section
/-! The byte queue (R78 to R82): a push keeps the newest bytes, a pop takes the oldest, and while no push overwrites,
the bytes leave in the order they came. -/

namespace Sys2Proof.Machine

open Sys2Proof.Claims

/-- One byte pushed: at most the oldest byte is lost (R78). -/
theorem pushByte_eq_drop {cap : Nat} {q : List Byte} (hcap : 1 ≤ cap) (hq : q.length ≤ cap) (b : Byte) :
    pushByte cap q b = (q ++ [b]).drop (q.length + 1 - cap) := by
  unfold pushByte
  split
  · next hfull =>
    have hne : q ≠ [] := List.ne_nil_of_length_pos (by omega)
    rw [show q.length + 1 - cap = 1 by omega, List.drop_one, List.tail_append_of_ne_nil hne]
  · next hroom => rw [show q.length + 1 - cap = 0 by omega, List.drop_zero]

/-- The net effect of a push (R78): what `b` drops and what `w` drops after it are together a prefix of
`q ++ b :: w`. -/
theorem foldl_pushByte_eq_drop {cap : Nat} (hcap : 1 ≤ cap) (w : List Byte) {q : List Byte} (hq : q.length ≤ cap) :
    w.foldl (pushByte cap) q = (q ++ w).drop (q.length + w.length - cap) := by
  induction w generalizing q with
  | nil => simp [Nat.sub_eq_zero_of_le hq]
  | cons b w ih =>
    have hlost : q.length + 1 - cap ≤ (q ++ [b]).length := by simp
    rw [List.foldl_cons, ih (pushByte_length_le hcap hq b), pushByte_eq_drop hcap hq b,
      ← List.drop_append_of_le_length hlost, List.drop_drop, List.append_assoc, List.singleton_append]
    congr 1
    simp only [List.length_drop, List.length_append, List.length_cons, List.length_nil]
    omega

/-- Settles O37: the queue's content is `foldl_pushByte_eq_drop`, and the push writes nothing else. -/
theorem pushKeepsTheLastBytes : Obligations.PushKeepsTheLastBytes := by
  intro s w hcap hq
  rw [← foldl_pushByte_eq_drop hcap w hq]
  rfl

/-- A pop of a queue that holds a byte (R79). -/
theorem execQPop_of_cons {s : State} {b : Byte} {r : List Byte} (hq : s.q = b :: r) :
    execQPop s = .next { s.setQueue r with returned := some (.byte b) } := by
  simp [execQPop, State.queuePop, hq]

/-- A pop of an empty queue has no step (R79). -/
theorem execQPop_of_nil {s : State} (hq : s.q = []) : execQPop s = .refused .popOfEmptyQueue := by
  simp [execQPop, State.queuePop, hq]

/-- Settles O38: the two cases of a pop; `Q_LEN` and `Q_RESET` have one case each. -/
theorem popLenAndResetOfTheQueue : Obligations.PopLenAndResetOfTheQueue :=
  fun _ => ⟨fun _ _ => execQPop_of_cons, execQPop_of_nil, rfl, rfl⟩

/-- A run that begins with a push: the bytes fit, and they come before what the rest of the run pushes. -/
theorem queueRun_push {w pushed popped : List Byte} {ops : List QueueOp} {s u : State}
    (h : queueRun (.push w :: ops) s = some (pushed, popped, u)) :
    s.q.length + w.length ≤ s.cfg.qCap ∧
      ∃ later, pushed = w ++ later ∧ queueRun ops (s.queuePush w) = some (later, popped, u) := by
  simp only [queueRun, exec, execQPush] at h
  split at h
  · next hfits =>
    split at h
    · next later popped' u' hrun =>
      cases h
      exact ⟨hfits, later, rfl, hrun⟩
    · cases h
  · cases h

/-- A run that begins with a pop: the queue holds a byte, and it comes before what the rest of the run pops. -/
theorem queueRun_pop {pushed popped : List Byte} {ops : List QueueOp} {s u : State}
    (h : queueRun (.pop :: ops) s = some (pushed, popped, u)) :
    ∃ b r later, s.q = b :: r ∧ popped = b :: later ∧
      queueRun ops { s.setQueue r with returned := some (.byte b) } = some (pushed, later, u) := by
  simp only [queueRun, exec] at h
  split at h
  · next t hpop =>
    obtain ⟨b, r, hq, rfl⟩ := execQPop_next hpop
    split at h
    · next b' pushed' later u' hb hrun =>
      cases h
      cases hb
      exact ⟨b, r, later, hq, rfl, hrun⟩
    · cases h
  · cases h

/-- Settles O39, by induction on the operations: a push that fits appends all its bytes, a pop moves the oldest byte
from the queue to the bytes popped. -/
theorem queueIsFirstInFirstOut : Obligations.QueueIsFirstInFirstOut := by
  intro s u ops
  induction ops generalizing s with
  | nil =>
    intro pushed popped h
    cases h
    simp
  | cons op ops ih =>
    intro pushed popped h
    cases op with
    | push w =>
      obtain ⟨hfits, later, rfl, hrun⟩ := queueRun_push h
      have hrest := ih _ _ _ hrun
      simpa [foldl_pushByte_of_fits w hfits] using hrest
    | pop =>
      obtain ⟨b, r, later, hq, rfl, hrun⟩ := queueRun_pop h
      have hrest : later ++ u.q = r ++ pushed := ih _ _ _ hrun
      rw [hq, List.cons_append, List.cons_append, hrest]

end Sys2Proof.Machine
end

section
/-! The ports of the Receiver by themselves (R83, R84, R100): `recv` by whether a request is outstanding and by what the
transport answers, the cancel sample, and the bad-escape event. -/

namespace Sys2Proof.Machine

open Sys2Proof.Claims

theorem State.requestRecv_of_pending {s : State} (h : s.recvPending = true) : s.requestRecv = s := by
  simp [State.requestRecv, h]

theorem State.requestRecv_of_not_pending {s : State} (h : s.recvPending = false) :
    s.requestRecv =
      { s with recvPending := true, trace := s.trace ++ [Event.recvRequest s.cfg.scratchSize] } := by
  simp [State.requestRecv, h]

/-- The transport's obligation depends on the parameters only (R83). -/
theorem answerOk_congr {s t : State} {a : RecvAnswer} (hc : t.cfg = s.cfg) (h : answerOk s a) : answerOk t a := by
  cases a with
  | data w => exact ⟨h.1, hc ▸ h.2⟩
  | noData | failure => trivial

/-- Data within the transport's obligation are taken, and nothing else is (R83, U5). -/
theorem State.recvPoll_of_data {s : State} {w : List Byte} {r : List RecvAnswer} (h : s.recvIn = .data w :: r) :
    s.recvPoll =
      if 1 ≤ w.length ∧ w.length ≤ s.cfg.scratchSize then
        .answered (.data w) ((s.requestRecv.takeAnswer r).fillScratch w)
      else .illegal := by
  rcases s.recvPoll_cases with ⟨h', -⟩ | ⟨r', h', -⟩ | ⟨r', h', -⟩ | ⟨w', r', h', h1, h2, e⟩ | ⟨w', r', h', hw, e⟩ <;>
    cases h.symm.trans h'
  · rw [e, if_pos ⟨h1, h2⟩]
  · rw [e, if_neg hw]

theorem execRecv_of_no_answer {s : State} (h : s.recvIn = []) : execRecv s = .next s.requestRecv := by
  have e : s.recvPoll = .waiting s.requestRecv := by simpa [h] using s.recvPoll_cases
  rw [execRecv, e]

/-- An answer that keeps the transport's obligation is taken, and its bytes are in `SCRATCH` (R83, R86). -/
theorem execRecv_of_answer {s : State} {a : RecvAnswer} {r : List RecvAnswer} (h : s.recvIn = a :: r)
    (ha : answerOk s a) : ∃ m : Memory,
      execRecv s = .next { s.requestRecv.takeAnswer r with scratch := m, returned := some (.answer a) } ∧
        ∀ i < (answerBytes a).length, Memory.read m i = (answerBytes a)[i]? := by
  cases a with
  | noData =>
    have e : s.recvPoll = .answered .noData (s.requestRecv.takeAnswer r) := by simpa [h] using s.recvPoll_cases
    exact ⟨s.requestRecv.scratch, by rw [execRecv, e]; rfl, by simp [answerBytes]⟩
  | failure =>
    have e : s.recvPoll = .answered .failure (s.requestRecv.takeAnswer r) := by simpa [h] using s.recvPoll_cases
    exact ⟨s.requestRecv.scratch, by rw [execRecv, e]; rfl, by simp [answerBytes]⟩
  | data w =>
    have e := (State.recvPoll_of_data h).trans (if_pos ha)
    exact ⟨Memory.writeSeq Memory.unspecified 0 w, by rw [execRecv, e]; rfl,
      fun i hi => Memory.read_writeSeq_zero _ hi⟩

theorem execRecv_of_illegal {s : State} {w : List Byte} {r : List RecvAnswer} (h : s.recvIn = .data w :: r)
    (hw : ¬(1 ≤ w.length ∧ w.length ≤ s.cfg.scratchSize)) : execRecv s = .refused .recvAnswerOutOfRange := by
  rw [execRecv, State.recvPoll_of_data h, if_neg hw]

/-- Settles O40: the three cases of `recv`, with the request made now. -/
theorem recvRequestAndItsAnswer : Obligations.RecvRequestAndItsAnswer := by
  intro s hp
  have ha := State.requestRecv_of_not_pending hp
  refine ⟨fun h => ha ▸ execRecv_of_no_answer h, fun a r h hok => ?_, fun w r => execRecv_of_illegal⟩
  obtain ⟨m, hm, hread⟩ := execRecv_of_answer h hok
  refine ⟨m, hm.trans ?_, hread⟩
  simp [ha, State.takeAnswer, hp]

/-- Settles O41: the same cases, with nothing left to ask. -/
theorem outstandingRecvIsNotRepeated : Obligations.OutstandingRecvIsNotRepeated := by
  intro s hp
  have ha := State.requestRecv_of_pending hp
  refine ⟨fun h => (execRecv_of_no_answer h).trans (by rw [ha]), fun a r h hok => ?_, fun w r => execRecv_of_illegal⟩
  obtain ⟨m, hm, hread⟩ := execRecv_of_answer h hok
  exact ⟨m, hm.trans (by rw [ha]; rfl), hread⟩

theorem State.cancelLevel_of_cons {s : State} {b : Bool} {r : List Bool} (h : s.cancelIn = b :: r) :
    s.cancelLevel = b := by
  simp [State.cancelLevel, h]

theorem State.cancelLevel_of_nil {s : State} (h : s.cancelIn = []) : s.cancelLevel = s.cancelReq := by
  simp [State.cancelLevel, h]

/-- Settles O42: the level sampled is the script's first, or the present one. -/
theorem cancelSampleAndEvent : Obligations.CancelSampleAndEvent := by
  refine fun s => ⟨fun b r h => ?_, fun h => ?_, rfl⟩ <;>
    simp only [exec, execCancelSample, State.afterCancelSample]
  · rw [State.cancelLevel_of_cons h, h, List.tail_cons]
  · rw [State.cancelLevel_of_nil h, h, List.tail_nil, ← h]

end Sys2Proof.Machine
end

section
/-! `RX_RECEIVE_FRAME` turn by turn (R85 to R90): one equation of the command for each case of steps A, B and C, and a
whole frame that is drained and delivered. -/

namespace Sys2Proof.Machine

theorem exec_rxReceiveFrame (c : Nat) (s : State) :
    exec (.rxReceiveFrame c) s = runReceive c { s with rx := some c } := rfl

/-- Settles O4: the running command's operand is in `rx` already, and no turn touches the port. -/
theorem runningReceiveBlocksOtherCommands : Obligations.RunningReceiveBlocksOtherCommands := by
  intro s c hr hx
  have hrun : step s = runReceive c s := step_of_rx hr hx
  refine ⟨?_, fun t h => ?_⟩
  · rw [hrun, exec_rxReceiveFrame, ← hx]
  · obtain ⟨-, -, -, hport, -⟩ := runReceive_frame (hrun ▸ h)
    exact hport

section
variable {c : Nat} {s t : State}

theorem runReceive_of_returned (h : turn c s = .returned t) : runReceive c s = .next t := by
  rw [runReceive_eq, h]

theorem runReceive_of_waits (h : turn c s = .waits t) : runReceive c s = .next t := by
  rw [runReceive_eq, h]

theorem runReceive_of_refuses {r : Refusal} (h : turn c s = .refuses r) : runReceive c s = .refused r := by
  rw [runReceive_eq, h]

end

/-! Step A (R87). -/

/-- Settles O43: `turn_delivers` and `turn_tooSmall`. -/
theorem receiveDeliversThePendingFrame : Obligations.ReceiveDeliversThePendingFrame := by
  refine fun s c hf => ⟨fun hc => ?_, fun hc => ?_⟩
  · refine ⟨Memory.writeSeq s.out 0 s.dbufLive,
      runReceive_of_returned (turn_delivers (s := { s with rx := some c }) hf hc), fun i v hi hv => ?_, fun i hi => ?_⟩
    · rw [Memory.read_writeSeq_zero _ (by simpa [State.dbufLive] using hi), State.getElem?_dbufLive hi hv]
    · rw [Memory.read_writeSeq, if_neg (by simpa [State.dbufLive] using hi)]
  · exact runReceive_of_returned (turn_tooSmall (s := { s with rx := some c }) hf hc)

/-! Step B (R88). The answer is taken after the sample and the request of `State.asked`, or from a request made before;
the command is the same after either. -/

section
variable {c : Nat} {s : State} {r : List RecvAnswer} {w : List Byte}

/-- Sample, request and answer. -/
theorem State.asked_takeAnswer_of_not_pending (hp : s.recvPending = false) (hl : s.cancelLevel = false) :
    s.asked.takeAnswer r =
      { s with cancelReq := false, cancelIn := s.cancelIn.tail, recvIn := r
               trace := s.trace ++ [Event.cancelSampled false, Event.recvRequest s.cfg.scratchSize] } := by
  simp [State.asked, State.takeAnswer, hp, hl]

theorem State.asked_takeAnswer_of_pending (hp : s.recvPending = true) :
    s.asked.takeAnswer r = { s with recvIn := r, recvPending := false } := by
  rw [State.asked_of_pending hp, State.takeAnswer]

/-- Sample and request. -/
theorem State.asked_of_not_pending (hp : s.recvPending = false) (hl : s.cancelLevel = false) :
    s.asked =
      { s with cancelReq := false, cancelIn := s.cancelIn.tail, recvPending := true
               trace := s.trace ++ [Event.cancelSampled false, Event.recvRequest s.cfg.scratchSize] } := by
  simp [State.asked, hp, hl]

/-- What fits an empty queue is its content after the push (R89). -/
theorem State.queuePush_of_empty (hq : s.q = []) (hw : w.length ≤ s.cfg.qCap) : s.queuePush w = s.setQueue w := by
  rw [State.queuePush, foldl_pushByte_of_fits w (by simpa [hq] using hw), hq, List.nil_append]

variable (c) (hf : s.decHasFrame = false) (hq : s.q = [])
include hf hq

theorem exec_rxReceiveFrame_cancelled (hp : s.recvPending = false) (hl : s.cancelLevel = true) :
    exec (.rxReceiveFrame c) s = .next (s.afterCancelSample.respond .cancelled .none) :=
  runReceive_of_returned (turn_cancelled (s := { s with rx := some c }) hf hq hp hl)

variable (hl : s.recvPending = true ∨ s.cancelLevel = false)
include hl

theorem exec_rxReceiveFrame_fails (hr : s.recvIn = .failure :: r) :
    exec (.rxReceiveFrame c) s = .next ((s.asked.takeAnswer r).respond .transportError .none) :=
  runReceive_of_returned (turn_fails (s := { s with rx := some c }) hf hq hl hr)

theorem exec_rxReceiveFrame_retries (hr : s.recvIn = .noData :: r) :
    exec (.rxReceiveFrame c) s = exec (.rxReceiveFrame c) (s.asked.takeAnswer r) :=
  runReceive_again (turn_retries (s := { s with rx := some c }) hf hq hl hr)

theorem exec_rxReceiveFrame_refills (hv : s.cfg.scratchSize ≤ s.cfg.qCap) (hr : s.recvIn = .data w :: r)
    (hw1 : 1 ≤ w.length) (hw2 : w.length ≤ s.cfg.scratchSize) :
    exec (.rxReceiveFrame c) s = exec (.rxReceiveFrame c) (((s.asked.takeAnswer r).fillScratch w).setQueue w) := by
  rw [← State.queuePush_of_empty (s := (s.asked.takeAnswer r).fillScratch w) hq (hw2.trans hv)]
  exact runReceive_again (turn_refills (s := { s with rx := some c }) hf hq hl hr hw1 hw2)

theorem exec_rxReceiveFrame_waits (hr : s.recvIn = []) :
    exec (.rxReceiveFrame c) s = .next { s.asked with rx := some c } :=
  runReceive_of_waits (turn_waits (s := { s with rx := some c }) hf hq hl hr)

theorem exec_rxReceiveFrame_refuses (hr : s.recvIn = .data w :: r)
    (hw : ¬(1 ≤ w.length ∧ w.length ≤ s.cfg.scratchSize)) :
    exec (.rxReceiveFrame c) s = .refused .recvAnswerOutOfRange :=
  runReceive_of_refuses (turn_refuses (s := { s with rx := some c }) hf hq hl hr hw)

end

/-- Settles O44: the cancelled turn, and the failing one with the request made now or before. -/
theorem receiveCancelledOrFailed : Obligations.ReceiveCancelledOrFailed := by
  intro s c hf hq
  refine ⟨fun hp hl => ?_, fun r hp hl hr => ?_, fun r hp hr => ?_⟩
  · rw [exec_rxReceiveFrame_cancelled c hf hq hp hl, State.afterCancelSample, hl]
  · rw [exec_rxReceiveFrame_fails c hf hq (.inr hl) hr, State.asked_takeAnswer_of_not_pending hp hl]
  · rw [exec_rxReceiveFrame_fails c hf hq (.inl hp) hr, State.asked_takeAnswer_of_pending hp]

/-- Settles O45: the turns that retry, refill and wait, the request made now or before, and the one that refuses. -/
theorem receiveRefillsTheQueue : Obligations.ReceiveRefillsTheQueue := by
  rintro s c ⟨-, -, hcap, -⟩ hf hq
  refine ⟨fun hp hl => ?_, fun hp => ?_, fun w r hl => exec_rxReceiveFrame_refuses c hf hq hl⟩
  · refine ⟨fun r hr => ?_, fun w r hr hw1 hw2 => ⟨Memory.writeSeq Memory.unspecified 0 w, ?_⟩, fun hr => ?_⟩
    · rw [exec_rxReceiveFrame_retries c hf hq (.inr hl) hr, State.asked_takeAnswer_of_not_pending hp hl]
    · rw [exec_rxReceiveFrame_refills c hf hq (.inr hl) hcap hr hw1 hw2, State.asked_takeAnswer_of_not_pending hp hl]
      rfl
    · rw [exec_rxReceiveFrame_waits c hf hq (.inr hl) hr, State.asked_of_not_pending hp hl]
  · refine ⟨fun r hr => ?_, fun w r hr hw1 hw2 => ⟨Memory.writeSeq Memory.unspecified 0 w, ?_⟩, fun hr => ?_⟩
    · rw [exec_rxReceiveFrame_retries c hf hq (.inl hp) hr, State.asked_takeAnswer_of_pending hp]
    · rw [exec_rxReceiveFrame_refills c hf hq (.inl hp) hcap hr hw1 hw2, State.asked_takeAnswer_of_pending hp]
      rfl
    · rw [exec_rxReceiveFrame_waits c hf hq (.inl hp) hr, State.asked_of_pending hp]

/-! Step C (R90). -/

/-- Decoding a byte does not look at the running command. -/
theorem State.decodeByte_setRx (s : State) (x : Option Nat) (b : Byte) :
    ({ s with rx := x }).decodeByte b = ((s.decodeByte b).1, { (s.decodeByte b).2 with rx := x }) := by
  have hframe := s.decodeByte_frame b
  rw [State.decodeByte_congr (s := s) (t := { s with rx := x }) rfl rfl rfl rfl rfl b]
  generalize s.decodeByte b = p at hframe ⊢
  rw [hframe]

section
variable (c : Nat) {s t : State} {b : Byte} {r : List Byte}

variable (hf : s.decHasFrame = false) (hq : s.q = b :: r)
include hf hq

theorem turn_drains_running : turn c { s with rx := some c } = drain b { s.setQueue r with rx := some c } :=
  turn_drains (s := { s with rx := some c }) hf hq

theorem exec_rxReceiveFrame_decodes (hd : (s.setQueue r).decodeByte b = (.ok, t)) :
    exec (.rxReceiveFrame c) s = exec (.rxReceiveFrame c) t :=
  runReceive_again (by rw [turn_drains_running c hf hq, drain, State.decodeByte_setRx, hd])

theorem exec_rxReceiveFrame_swallows (hd : (s.setQueue r).decodeByte b = (.badEscape, t)) :
    exec (.rxReceiveFrame c) s = exec (.rxReceiveFrame c) t.emitBadEscape :=
  runReceive_again (by rw [turn_drains_running c hf hq, drain, State.decodeByte_setRx, hd]; rfl)

theorem exec_rxReceiveFrame_overflows (hd : (s.setQueue r).decodeByte b = (.overflow, t)) :
    exec (.rxReceiveFrame c) s = .next (t.decoderReset.respond .bufferTooSmall .none) :=
  runReceive_of_returned (by rw [turn_drains_running c hf hq, drain, State.decodeByte_setRx, hd]; rfl)

end

/-- A `DEC_BYTE` by itself is the decoding of step C with a response, which the command does not give (R61, R90). -/
theorem decodeByte_of_exec_decByte {s t : State} {b : Byte} {st : Status} (ht : exec (.decByte b) s = .next t)
    (hr : t.resp = some { status := st, value := .none }) :
    s.decodeByte b = (st, { t with resp := s.resp, trace := s.trace, rx := s.rx }) := by
  obtain ⟨-, rfl⟩ := feed_next ht
  have hst : (s.decodeByte b).1 = st := by simpa using hr
  refine Prod.ext hst ((s.decodeByte_frame b).trans ?_)
  simp [State.respond]

/-- Settles O46: the three statuses of `DEC_BYTE`, one turn each; the command puts its own operand in `rx`. -/
theorem receiveDrainsOneByte : Obligations.ReceiveDrainsOneByte := by
  intro s t c b r st hf hq ht hr
  have hd : (s.setQueue r).decodeByte b = _ := decodeByte_of_exec_decByte ht hr
  refine ⟨?_, ?_, ?_⟩ <;> rintro rfl
  · exact (exec_rxReceiveFrame_decodes c hf hq hd).trans rfl
  · exact (exec_rxReceiveFrame_swallows c hf hq hd).trans rfl
  · exact exec_rxReceiveFrame_overflows c hf hq (State.decodeByte_overflow (congrArg Prod.fst hd))

/-! A whole frame (R85). -/

/-- A pending frame with the payload `p` is delivered (R87). -/
theorem runReceive_of_pending {c : Nat} {s : State} {m : Memory} {p : List Byte} (hf : s.decHasFrame = true)
    (hi : s.decIdx = p.length) (hm : s.dbuf = Memory.writeSeq m 0 p) (hc : p.length ≤ c) :
    runReceive c s =
      .next (({ s with out := Memory.writeSeq s.out 0 p }).decoderReset.respond .ok (.payloadLength p.length)) := by
  have hlive : s.dbufLive = p := by rw [State.dbufLive, hi, State.bytesBelow_of_writeSeq (buf := .dbuf) hm]
  rw [runReceive_of_returned (turn_delivers hf (hi ▸ hc)), hlive, hi]

/-- Settles O47: the frame's bytes are all answered `Ok` and leave it pending; then step A. -/
theorem receiveReturnsTheQueuedFrame : Obligations.ReceiveReturnsTheQueuedFrame := by
  intro s c p rest hi hf hs hp hcap hc hq
  have hfeeds := Feeds.frame (s := { s with rx := some c }) hp hf hs (hi.decIdx_eq_zero hf hs) hcap
  refine ⟨Memory.writeSeq s.dbuf 0 p, Memory.writeSeq s.out 0 p, ?_, fun i => Memory.read_writeSeq_zero s.out,
    fun i hip => ?_⟩
  · have hrun := hfeeds.runReceive c rest
    rw [State.setQueue, ← hq] at hrun
    exact hrun.trans (runReceive_of_pending rfl rfl rfl hc)
  · rw [Memory.read_writeSeq, if_neg (by omega)]

end Sys2Proof.Machine
end

section
/-! What a run of `RX_RECEIVE_FRAME` comes to (R91, R92): it is not refused while the transport keeps its obligation, it
ends in a return or in the wait of step B, and what it leaves is what its last turn leaves. -/

namespace Sys2Proof.Machine

open Sys2Proof.Claims

section
variable {c : Nat} {s t : State}

/-- The turn in which a run that answers next ends, and what the turns before it have kept (R86). -/
theorem runReceive_last_turn {Q : State → Prop} (again : ∀ u v, Q u → turn c u = .again v → Q v) (hs : Q s)
    (h : runReceive c s = .next t) : ∃ u, Q u ∧ (turn c u = .returned t ∨ turn c u = .waits t) := by
  refine runReceive_induction (c := c) (P := fun s o => Q s → ∀ t, o = .next t →
    ∃ u, Q u ∧ (turn c u = .returned t ∨ turn c u = .waits t)) ?_ ?_ ?_ ?_ s hs t h
  · rintro a b ht hs _ ⟨⟩
    exact ⟨a, hs, .inl ht⟩
  · rintro a b ht hs _ ⟨⟩
    exact ⟨a, hs, .inr ht⟩
  · rintro a r - - _ ⟨⟩
  · exact fun a b o ht ih hs => ih (again a b hs ht)

/-- Where another turn follows, the command still runs and `OUT` is as it was. -/
theorem turn_again_keeps (h : turn c s = .again t) : t.rx = s.rx ∧ t.out = s.out := by
  have e := turn_effect c s
  rw [h] at e
  cases e with
  | decodes hf b r hq _ hd =>
    have hb := (s.setQueue r).decodeByte_fields b
    rw [hd] at hb
    simp_all
  | _ => simp

/-- A turn takes at most the transport's next answer. -/
theorem turn_again_recvIn (h : turn c s = .again t) : t.recvIn <:+ s.recvIn := by
  have e := turn_effect c s
  rw [h] at e
  cases e with
  | retries hf hq hl r hr | refills hf hq hl w r hr => simp [hr]
  | decodes hf b r hq _ hd =>
    have hb := (s.setQueue r).decodeByte_fields b
    rw [hd] at hb
    simp_all
  | swallows => simp

/-- The command waits in step B only (R88). -/
theorem turn_waits_inv (h : turn c s = .waits t) :
    s.decHasFrame = false ∧ s.q = [] ∧ s.recvIn = [] ∧ t = s.asked := by
  have e := turn_effect c s
  rw [h] at e
  cases e with
  | waits hf hq hl hr => exact ⟨hf, hq, hr, rfl⟩

/-- Each return of the loop, by its status (R86, R91): step A and an overflow reset the Decoder, step B returns with an
empty queue and no frame pending, and only a delivery writes `OUT`. -/
theorem turn_returned_leaves (h : turn c s = .returned t) {r : Response} (hr : t.resp = some r) :
    (r.status = .ok ∨ r.status = .bufferTooSmall → t.decIdx = 0 ∧ t.decHasFrame = false ∧ t.decState = .idle) ∧
      (r.status = .transportError ∨ r.status = .cancelled → t.q = [] ∧ t.decHasFrame = false) ∧
      (r.status ≠ .ok → t.out = s.out ∧ r.value = .none) ∧
      (r.status = .ok → ∃ l, r.value = .payloadLength l ∧ l ≤ c ∧
        ∀ i, l ≤ i → Memory.read t.out i = Memory.read s.out i) := by
  have e := turn_effect c s
  rw [h] at e
  cases e with
  | delivers hf hc =>
    obtain rfl : r = _ := (Option.some.inj hr).symm
    refine ⟨by simp, by simp, by simp, fun _ => ⟨s.decIdx, rfl, hc, fun i hi => ?_⟩⟩
    simp [Memory.read_writeSeq, State.dbufLive, hi]
  | tooSmall | overflows | cancelled hf hq | fails hf hq =>
    obtain rfl : r = _ := (Option.some.inj hr).symm
    simp [*]

/-- A transport that keeps its obligation is never refused (R83, R92). -/
theorem runReceive_answers (h : ∀ a ∈ s.recvIn, answerOk s a) : ∃ t, runReceive c s = .next t := by
  refine runReceive_induction (c := c) (P := fun s o => (∀ a ∈ s.recvIn, answerOk s a) → ∃ t, o = .next t)
    ?_ ?_ ?_ ?_ s h
  · exact fun a b _ _ => ⟨b, rfl⟩
  · exact fun a b _ _ => ⟨b, rfl⟩
  · intro a r ht h
    have e := turn_effect c a
    rw [ht] at e
    cases e with
    | refuses hf hq hl w r hr hw => exact absurd (h (.data w) (by simp [hr])) hw
  · intro a b o ht ih h
    obtain ⟨hcfg, -⟩ := turn_frame (.inr (.inr ht))
    exact ih fun x hx => answerOk_congr hcfg (h x ((turn_again_recvIn ht).subset hx))

/-- A run that leaves the command running ends in the wait of R88. -/
theorem runReceive_running (h : runReceive c s = .next t) (hx : t.rx ≠ none) :
    t.recvPending = true ∧ t.recvIn = [] ∧ t.q = [] ∧ t.decHasFrame = false := by
  obtain ⟨u, -, hu | hu⟩ := runReceive_last_turn (Q := fun _ => True) (fun _ _ _ _ => trivial) trivial h
  · obtain ⟨_, -, ho⟩ := turn_observes c u
    rw [hu] at ho
    obtain ⟨_, _, hnone, -⟩ := ho
    exact absurd hnone hx
  · obtain ⟨hf, hq, hr, rfl⟩ := turn_waits_inv hu
    simp [hf, hq, hr]

/-- A run that completes the command returns in its last turn, and `OUT` is until then as it was. -/
theorem runReceive_returns (h : runReceive c s = .next t) (hs : s.rx ≠ none) (hx : t.rx = none) :
    ∃ u, u.out = s.out ∧ turn c u = .returned t := by
  obtain ⟨u, ⟨hux, huo⟩, hu | hu⟩ := runReceive_last_turn (Q := fun u => u.rx = s.rx ∧ u.out = s.out)
    (fun a b ha ht => by
      obtain ⟨hbx, hbo⟩ := turn_again_keeps ht
      exact ⟨hbx.trans ha.1, hbo.trans ha.2⟩) ⟨rfl, rfl⟩ h
  · exact ⟨u, huo, hu⟩
  · obtain ⟨-, -, -, rfl⟩ := turn_waits_inv hu
    exact absurd (hux.symm.trans hx) hs

end

/-- Settles O48: `runReceive_answers`, and then `runReceive_completed` and `runReceive_running` for the two ends. -/
theorem receiveCompletesOrWaits : Obligations.ReceiveCompletesOrWaits := by
  intro s c h
  obtain ⟨t, ht⟩ := runReceive_answers (c := c) (s := { s with rx := some c }) h
  refine ⟨t, ht, ?_⟩
  obtain ⟨evs, -, ⟨hx, r, hr, htr, hst, -⟩ | ⟨hx, hr, -⟩⟩ := runReceive_completed ht
  · exact .inl ⟨hx, r, s.trace ++ evs, hr, htr, hst⟩
  · obtain ⟨hp, hin, hq, hf⟩ := runReceive_running ht (by simp [hx])
    exact .inr ⟨hx, hp, hin, hq, hf, hr⟩

/-- Settles O49: `turn_returned_leaves` of the last turn; no turn touches the Encoder. -/
theorem receiveLeavesWhatTheTableSays : Obligations.ReceiveLeavesWhatTheTableSays := by
  intro s t c r h hx hr
  obtain ⟨u, huo, hu⟩ := runReceive_returns (s := { s with rx := some c }) h (by simp) hx
  obtain ⟨hdec, hq, herr, hok⟩ := turn_returned_leaves hu hr
  obtain ⟨-, hidx, hbuf, -⟩ := runReceive_frame h
  have huo : u.out = s.out := huo
  rw [huo] at herr hok
  exact ⟨hdec, hq, herr, hok, hidx, hbuf⟩

end Sys2Proof.Machine
end

section
/-! Block reset (R109) as one equation: the reset state of the instance (R26), but for what is the environment's, `OUT`,
the trace and the count of resets. -/

namespace Sys2Proof.Machine

theorem State.blockReset_eq (s : State) :
    s.blockReset =
      { State.resetOf s.cfg with
          out := s.out, trace := s.trace, hostIn := s.hostIn, recvIn := s.recvIn
          cancelReq := s.cancelReq, cancelIn := s.cancelIn, freeGen := s.freeGen + 1 } := rfl

/-- Settles O2: an asserted `rst` makes the step block reset, which is `State.blockReset_eq`. -/
theorem blockResetPutsResetValues : Obligations.BlockResetPutsResetValues := by
  intro s hr
  rw [step_of_rst hr, State.blockReset_eq]

end Sys2Proof.Machine
end
